-- ==== Sys2Proof/Word.lean ====
section
/-! DEFINITION. The value types that travel on the codec's ports (10_state.md R10, 00_scope.md 5.1, 5.2). -/

namespace Sys2Proof

/-- A native float: a binary64 word carried as one 64-bit word, never as bytes (R5, R18 d). -/
abbrev Word64 := BitVec 64

/-- A binary32 pattern (R2). -/
abbrev Word32 := BitVec 32

/-- A BitString: a finite sequence of bits, first element first; `false` is the character `'0'` and
`true` the character `'1'` (00_scope.md 5.2, D3). Any length, also 0. -/
abbrev BitString := List Bool

/-- A character: an 8-bit code, ASCII for the glyphs the rules name (R23, D4). -/
abbrev Char8 := BitVec 8

/-- A String or HexString: a finite sequence of characters, first character first (00_scope.md 5.2). -/
abbrev Str := List Char8

end Sys2Proof
end

