-- ==== Sys2Proof/Config.lean ====
section
/-! DEFINITION. The implementation parameters of 00_scope.md section 4: the fixed ones as numbers, the
lengths of the wire binding, and the three open ones as free values (opaque constants with no body). -/

namespace Sys2Proof

/-- A binary floating-point layout: exponent and mantissa field widths (R2, R33). -/
structure Format where
  expBits : Nat
  manBits : Nat
deriving DecidableEq, Repr

/-- `BIAS`, 127 or 1023 (R33, G1). -/
def Format.bias (F : Format) : Nat := 2 ^ (F.expBits - 1) - 1

/-- "sign 1 bit, exponent 8 bits, mantissa 23 bits" (R2). -/
def binary32 : Format := ⟨8, 23⟩

/-- "sign 1 bit, exponent 11 bits, mantissa 52 bits" (R2); also `NATIVE` (R5, D2). -/
def binary64 : Format := ⟨11, 52⟩

/-- `LMAX` of the wire binding: the greatest length of a bit-string (R21, D3; log 5). -/
def Config.lMax : Nat := 255

/-- `HMAX` of the wire binding: the greatest length of an input String (R21, D4; log 5). -/
def Config.hMax : Nat := 255

/-- `SMAX` of the wire binding: the greatest length of an output String (R22, D4; log 10). -/
def Config.sMax : Nat := 255

/-- The three parameters of the codec that the spec leaves OPEN (00_scope.md section 4). The operations
take a `Params` as an argument, as the spec says a model does; the machine runs with
`Machine.codecParams`. Only `Machine.LawfulParams` may be assumed of one. -/
structure Params where
  /-- `NAN_NARROW`, read only at a mantissa that is not zero (R37, D11). -/
  nanNarrow  : BitVec 52 → BitVec 23
  /-- `NAN_WIDEN`, read only at a mantissa that is not zero (R45, D12). -/
  nanWiden   : BitVec 23 → BitVec 52
  /-- `TEXT_RENDER`, a function of the native value alone (R46, D14). -/
  textRender : Word64 → Str

/-- FREE VALUE behind `NAN_NARROW` (R37, U5; log 6): nothing constrains it, so nothing can be proved of it. -/
opaque Config.freeNanNarrow : BitVec 52 → BitVec 23

/-- FREE VALUE behind `NAN_WIDEN` (R45, U5; log 7). -/
opaque Config.freeNanWiden : BitVec 23 → BitVec 52

/-- FREE VALUE behind the digits of `TEXT_RENDER` (R46, U7; log 8). -/
opaque Config.freeText : Word64 → Str

end Sys2Proof
end

