-- ==== Sys2Proof/Syntax.lean ====
section
/-! DEFINITION. The seven operations with their operands (10_state.md section 1, R24) and the wire form of a
request (30_encoding.md R21). -/

namespace Sys2Proof

/-- One constructor per row of spec/opcode_table.json: the abstract `Request` of 10_state.md section 1.
The sequences are unbounded here, as R21 allows; `Instr.wellFormed` says which fit the wire. -/
inductive Instr where
  /-- ENCODE32, `encode32(value)` (R39). -/
  | encode32 (v : Word64)
  /-- ENCODE64, `encode64(value)` (R40). -/
  | encode64 (v : Word64)
  /-- DECODE32, `decode32(bits)` (R42). -/
  | decode32 (b : BitString)
  /-- DECODE64, `decode64(bits)` (R43). -/
  | decode64 (b : BitString)
  /-- BITSFROMHEX32, `bitsFromHex32(hex)` (R56). -/
  | bitsFromHex32 (h : Str)
  /-- BITSFROMHEX64, `bitsFromHex64(hex)` (R57). -/
  | bitsFromHex64 (h : Str)
  /-- HEXFROMBITS, `hexFromBits(bits)` (R54). -/
  | hexFromBits (b : BitString)
deriving DecidableEq, Repr

/-- The one request format (R21), field by field. The wires of a sequence are one bundle: element `i` of
`bs` is bit `i` of the bundle (`bs.getLsbD i`), character `i` of `hx` is bits `8i+7 .. 8i` of its
bundle; a bundle is no number and no rule reads it as one. -/
structure WireRequest where
  /-- `op[2:0]`, operation select (R24). -/
  op    : BitVec 3
  /-- `fval[63:0]`, native float operand. -/
  fval  : BitVec 64
  /-- length of the BitString operand, 0 to 255. -/
  bsLen : BitVec 8
  /-- `bs(i)`, 0 <= i < 255. -/
  bs    : BitVec 255
  /-- length of the String operand, 0 to 255. -/
  hxLen : BitVec 8
  /-- `hx(i)`, 0 <= i < 255, 8 bits each. -/
  hx    : BitVec 2040
deriving DecidableEq, Repr

end Sys2Proof
end

