-- ==== Sys2Proof/WellFormed.lean ====
section
/-! DEFINITION. Which operations the wire can carry (30_encoding.md R21): the lengths are 8-bit fields. -/

namespace Sys2Proof

/-- The operand fits the request format: a BitString of at most `LMAX` elements, a String of at most
`HMAX` characters, both 255 in the wire binding (R21, log 5). Every float operand fits. The empty
BitString of HEXFROMBITS is well formed as a request ("every value of ... bs_len ... is legal as an
input", R26); that it is outside the operation's domain is `execHexFromBits`'s matter (R54). -/
def Instr.wellFormed : Instr → Bool
  | .encode32 _ => true
  | .encode64 _ => true
  | .decode32 b => decide (b.length ≤ Config.lMax)
  | .decode64 b => decide (b.length ≤ Config.lMax)
  | .bitsFromHex32 h => decide (h.length ≤ Config.hMax)
  | .bitsFromHex64 h => decide (h.length ≤ Config.hMax)
  | .hexFromBits b => decide (b.length ≤ Config.lMax)

end Sys2Proof
end

