-- ==== Sys2Proof/Decode.lean ====
section
/-! DEFINITION. The decoder from a wire request to an operation (R24, R25, R26), total, refusing the
reserved code by name; the encoder written from the same rules; and the flat numbering of a request's
bits that extends spec/opcode_table.json's. -/

namespace Sys2Proof

/-- Why a request is not a well-formed request. -/
inductive DecodeError where
  /-- `op = 111` (R26, U4): no operation, no response defined. -/
  | reservedOp
deriving DecidableEq, Repr

/-- Operation select codes (R24, D5). -/
def opCode : Instr → BitVec 3
  | .encode32 _ => 0b000#3
  | .encode64 _ => 0b001#3
  | .decode32 _ => 0b010#3
  | .decode64 _ => 0b011#3
  | .bitsFromHex32 _ => 0b100#3
  | .bitsFromHex64 _ => 0b101#3
  | .hexFromBits _ => 0b110#3

/-- Character `i` of the `hx` wires (R21). -/
def WireRequest.hxAt (r : WireRequest) (i : Nat) : Char8 := r.hx.extractLsb' (8 * i) 8

/-- The BitString operand: `len(b) = bs_len`, `b(i) = bs(i)` (R25); elements at `i >= bs_len` are not read. -/
def WireRequest.bitString (r : WireRequest) : BitString :=
  (List.range r.bsLen.toNat).map (fun i => r.bs.getLsbD i)

/-- The String operand: `len(h) = hx_len`, `h(i) = hx(i)` (R25); characters at `i >= hx_len` are not read. -/
def WireRequest.string (r : WireRequest) : Str :=
  (List.range r.hxLen.toNat).map (fun i => r.hxAt i)

/-- Which operation a request selects, with its operand (R24, R25); `op = 111` is refused (R26). -/
def decode (r : WireRequest) : Except DecodeError Instr :=
  match r.op.toNat with
  | 0 => .ok (.encode32 r.fval)
  | 1 => .ok (.encode64 r.fval)
  | 2 => .ok (.decode32 r.bitString)
  | 3 => .ok (.decode64 r.bitString)
  | 4 => .ok (.bitsFromHex32 r.string)
  | 5 => .ok (.bitsFromHex64 r.string)
  | 6 => .ok (.hexFromBits r.bitString)
  | _ => .error .reservedOp

/-- The number whose bit `i` is element `i`: the value of a bundle of 1-bit wires. -/
def packBits : BitString → Nat
  | [] => 0
  | x :: xs => x.toNat + 2 * packBits xs

/-- The number whose bits `8i+7 .. 8i` are character `i`: the value of a bundle of 8-bit wires. -/
def packChars : Str → Nat
  | [] => 0
  | c :: cs => c.toNat + 256 * packChars cs

/-- A request with every field zero but `op`. Unread fields "may hold anything" (R25); the encoder writes 0. -/
def WireRequest.blank (op : BitVec 3) : WireRequest :=
  { op := op, fval := 0, bsLen := 0, bs := 0, hxLen := 0, hx := 0 }

/-- The request carrying a float operand (R21). -/
def WireRequest.withFval (r : WireRequest) (v : Word64) : WireRequest := { r with fval := v }

/-- The request carrying a BitString operand (R21). -/
def WireRequest.withBits (r : WireRequest) (b : BitString) : WireRequest :=
  { r with bsLen := BitVec.ofNat 8 b.length, bs := BitVec.ofNat 255 (packBits b) }

/-- The request carrying a String operand (R21). -/
def WireRequest.withString (r : WireRequest) (h : Str) : WireRequest :=
  { r with hxLen := BitVec.ofNat 8 h.length, hx := BitVec.ofNat 2040 (packChars h) }

/-- The request that selects an operation with its operand; right for a well-formed operation. -/
def encode (i : Instr) : WireRequest :=
  match i with
  | .encode32 v => (WireRequest.blank (opCode i)).withFval v
  | .encode64 v => (WireRequest.blank (opCode i)).withFval v
  | .decode32 b => (WireRequest.blank (opCode i)).withBits b
  | .decode64 b => (WireRequest.blank (opCode i)).withBits b
  | .bitsFromHex32 h => (WireRequest.blank (opCode i)).withString h
  | .bitsFromHex64 h => (WireRequest.blank (opCode i)).withString h
  | .hexFromBits b => (WireRequest.blank (opCode i)).withBits b

/-- Number of bits of a request: 3 + 64 + 8 + 255 + 8 + 2040. -/
abbrev wireBits : Nat := 2378

/-- A request as one number: the fields of R21 in the order of its table, `op` at bits 2..0 as
spec/opcode_table.json numbers it, each later field above the one before it. The spec gives no
positions but `op`'s: DESIGN CHOICE, log 4. -/
def WireRequest.toFlat (r : WireRequest) : BitVec wireBits :=
  r.hx ++ (r.hxLen ++ (r.bs ++ (r.bsLen ++ (r.fval ++ r.op))))

/-- The request whose flat form is `w` (log 4). -/
def WireRequest.ofFlat (w : BitVec wireBits) : WireRequest :=
  { op    := w.extractLsb' 0 3
    fval  := w.extractLsb' 3 64
    bsLen := w.extractLsb' 67 8
    bs    := w.extractLsb' 75 255
    hxLen := w.extractLsb' 330 8
    hx    := w.extractLsb' 338 2040 }

/-- The request whose first `nbits` bits are those of `w` and whose other bits are 0 (log 4). -/
def WireRequest.ofTableWord (nbits w : Nat) : WireRequest :=
  WireRequest.ofFlat (BitVec.ofNat wireBits (w % 2 ^ nbits))

/-- What the decoder reads from a word numbered as spec/opcode_table.json numbers it; none where it refuses. -/
def decodeTableWord (nbits w : Nat) : Option Instr :=
  match decode (WireRequest.ofTableWord nbits w) with
  | .ok i => some i
  | .error _ => none

end Sys2Proof
end

