-- ==== Sys2Proof/Machine/State.lean ====
section
/-! DEFINITION. The responses (10_state.md section 1, R22), the machine state and the reasons a step can stop.
The codec itself has no state (R7); the state holds what passes its two ports over a run (log 1). -/

namespace Sys2Proof.Machine

/-- `cls`: the class of a pattern (R34); codes in `classCode` (R27). -/
inductive FpClass where
  | zero
  | subnormal
  | normal
  | infinity
  | nan
deriving DecidableEq, Repr

/-- The two failure kinds, "Two error kinds only" (R62, R63, R64). -/
inductive Failure where
  /-- raised by DECODE32 and DECODE64 alone (R62). -/
  | invalidLength
  /-- raised by BITSFROMHEX32 and BITSFROMHEX64 alone (R63). -/
  | invalidHex
deriving DecidableEq, Repr

/-- What a successful decode returns (R42, R43): `sign`, `exp`, `man`, `cls` describe the INPUT pattern, the
binary32 fields zero-extended; `rval` is the native float. -/
structure Decoded where
  rval : Word64
  sign : BitVec 1
  exp  : BitVec 11
  man  : BitVec 52
  cls  : FpClass
  text : Str
deriving DecidableEq, Repr

/-- The result of an operation whose status is OK (10_state.md section 1). -/
inductive Result where
  /-- ENCODE32, ENCODE64, BITSFROMHEX32, BITSFROMHEX64. -/
  | bits (b : BitString)
  /-- DECODE32, DECODE64. -/
  | decoded (d : Decoded)
  /-- HEXFROMBITS. -/
  | hex (h : Str)
deriving DecidableEq, Repr

/-- The response of one operation (10_state.md section 1). A failing response carries its kind and nothing
else (R65, D7). -/
inductive Response where
  | ok (r : Result)
  | fail (k : Failure)
deriving DecidableEq, Repr

/-- Plain data: the request port's requests still to come and the responses produced so far. The spec gives
the machine no state of its own: no register, program counter, flag, control register, memory, mode or
interrupt bit exists (R7, R11 to R17, R68, R69). Both fields are the model's (DESIGN CHOICE, log 1); no
meaning reads either. -/
structure State where
  /-- The requests the host has still to present, next one first (R8, R12). -/
  requests  : List WireRequest
  /-- The responses produced, oldest first: "the outcome of the run is the list of the `n` responses" (R75). -/
  responses : List Response
deriving DecidableEq, Repr

/-- The machine has no fault: both failures are responses, after which "the codec stays fully usable"
(R65), and "there is no third failure" (R64). No constructor, so no step can fault. -/
inductive Fault where
deriving DecidableEq, Repr

/-- Why a step answers no response. Every one is safe: the spec defines no response there, and a claim
about a next state says nothing of it. -/
inductive Refusal where
  /-- Raised by exec's arm of an instruction that has no meaning yet (none is left). Safe. -/
  | notModelled (mnemonic : String)
  /-- Raised by step: the request's `op` is 111, "a model refuses such a request" (R26, D8, U4; log 15). Safe. -/
  | reservedOp
  /-- Raised by HEXFROMBITS: "for the empty BitString no response is defined; a model refuses that request"
  (R54, D17, U2; log 16). Safe. -/
  | emptyBitString
  /-- Raised by step when the host presents no request: "a model has no such moment" (10_state.md section 4,
  U11; log 2). Safe. -/
  | noRequest
deriving DecidableEq, Repr

/-- After reset: nothing to initialise (R71); no request has been presented and no response produced
(DESIGN CHOICE, log 1). -/
def State.reset : State := { requests := [], responses := [] }

end Sys2Proof.Machine
end

