-- ==== Sys2Proof/Machine/Ops.lean ====
section
/-! DEFINITION. How an operation ends: the one response it produces goes to the response port (R8, R75), a
result or a failure (the analogue of taking an exception, 60_exceptions.md section 2). The codec has no
register and no memory, so there is no register or memory operation (R11, R17). -/

namespace Sys2Proof.Machine

/-- What a meaning answers. -/
abbrev Answer := Host.Outcome State Fault Refusal

/-- The response `r` is produced: it is added after the responses before it, and nothing else changes. -/
def State.reply (s : State) (r : Response) : State := { s with responses := s.responses ++ [r] }

/-- `return Ok(...)`: "the operation ends with status OK and the named result fields" (00_scope.md 5.3). -/
def State.succeed (s : State) (r : Result) : Answer := .next (s.reply (.ok r))

/-- `raise kind`: "the operation ends; its response is the failure of that kind and carries no result"
(00_scope.md 5.3, R65). Nothing is saved, no mode changes, control goes nowhere (R65); there is no return
from a failure (R67): the next step serves the next request. -/
def State.raise (s : State) (k : Failure) : Answer := .next (s.reply (.fail k))

/-- The request port is advanced past the request being served. -/
def State.withRequests (s : State) (rs : List WireRequest) : State := { s with requests := rs }

end Sys2Proof.Machine
end

