-- ==== Sys2Proof/Machine/Operands.lean ====
section
/-! DEFINITION. The readings of a BitString that the rules use (00_scope.md 5.2, R18): the most significant
element is the first. -/

namespace Sys2Proof.Machine

/-- `uint(b)`: "interpreting the bit-string as big-endian bits", the sum of `b(i) * 2^(len(b)-1-i)`
(00_scope.md 5.2, R18 b). Unbounded (R61). -/
def uint : BitString → Nat
  | [] => 0
  | x :: xs => x.toNat * 2 ^ xs.length + uint xs

/-- The bits `k-1 .. 0` of a word, most significant first. -/
def bitsBelow {n : Nat} (w : BitVec n) : Nat → BitString
  | 0 => []
  | k + 1 => w.getLsbD k :: bitsBelow w k

/-- `to_bitstring_N(w)`: element `i` is `w[N-1-i]`, always `N` elements (00_scope.md 5.2, R18 a). -/
def toBitString {n : Nat} (w : BitVec n) : BitString := bitsBelow w n

/-- `to_word_N(b)` for `len(b) = N`: the first element is the most significant bit (00_scope.md 5.2). -/
def toWord (n : Nat) (b : BitString) : BitVec n := BitVec.ofNat n (uint b)

/-- The positional numeral of `n` in a base, most significant digit first, with no leading zero but for
`n = 0`, which is one digit (the recursion of R55). `fuel` bounds the recursion: `Nat.log2 n` is enough. -/
def digitsAux (base : Nat) : Nat → Nat → List Nat
  | 0, n => [n % base]
  | fuel + 1, n => if n < base then [n] else digitsAux base fuel (n / base) ++ [n % base]

/-- The digits of `n` in base `base` (at least 2). -/
def digitsOf (base n : Nat) : List Nat := digitsAux base (Nat.log2 n) n

/-- The natural a digit sequence denotes, the sum of `d(i) * base^(len-1-i)` (R58). Unbounded (R61). -/
def natOfDigits (base : Nat) : List Nat → Nat
  | [] => 0
  | d :: ds => d * base ^ ds.length + natOfDigits base ds

/-- The glyph of a digit below 16: `'0'` to `'9'`, then lowercase `'a'` to `'f'` (R23, R55). -/
def digitChar (d : Nat) : Char8 := BitVec.ofNat 8 (if d < 10 then 0x30 + d else 0x57 + d)

end Sys2Proof.Machine
end

