-- ==== Sys2Proof/Machine/Fields.lean ====
section
/-! DEFINITION. `sign_exponent_mantissa_extractor` (R31, R32), what a pattern denotes (R33) and
`NaN_infinity_handler` (R34, R35): 40_fields_and_classes.md. -/

namespace Sys2Proof.Machine

/-- `EXTRACT32`, sign: `w[31]` (R31). -/
def sign32 (w : Word32) : BitVec 1 := w.extractLsb' 31 1
/-- `EXTRACT32`, exponent: `w[30:23]` (R31). -/
def exp32 (w : Word32) : BitVec 8 := w.extractLsb' 23 8
/-- `EXTRACT32`, mantissa: `w[22:0]` (R31). -/
def man32 (w : Word32) : BitVec 23 := w.extractLsb' 0 23
/-- `PACK32(sign, exponent, mantissa) = sign ++ exponent ++ mantissa` (R31). -/
def pack32 (s : BitVec 1) (e : BitVec 8) (m : BitVec 23) : Word32 := s ++ (e ++ m)

/-- `EXTRACT64`, sign: `d[63]` (R32). -/
def sign64 (d : Word64) : BitVec 1 := d.extractLsb' 63 1
/-- `EXTRACT64`, exponent: `d[62:52]` (R32). -/
def exp64 (d : Word64) : BitVec 11 := d.extractLsb' 52 11
/-- `EXTRACT64`, mantissa: `d[51:0]` (R32). -/
def man64 (d : Word64) : BitVec 52 := d.extractLsb' 0 52
/-- `PACK64(sign, exponent, mantissa) = sign ++ exponent ++ mantissa` (R32). -/
def pack64 (s : BitVec 1) (e : BitVec 11) (m : BitVec 52) : Word64 := s ++ (e ++ m)

/-- `CLASSIFY_N(exponent, mantissa)` (R34). No difference between quiet and signalling NaNs (D26). -/
def classify {E M : Nat} (e : BitVec E) (m : BitVec M) : FpClass :=
  if e = BitVec.allOnes E then (if m = 0 then .infinity else .nan)
  else if e = 0 then (if m = 0 then .zero else .subnormal)
  else .normal

/-- The class of a binary32 pattern. -/
def class32 (w : Word32) : FpClass := classify (exp32 w) (man32 w)
/-- The class of a binary64 pattern. -/
def class64 (d : Word64) : FpClass := classify (exp64 d) (man64 d)

/-- `ZERO_32(s)` (R35). -/
def zero32 (s : BitVec 1) : Word32 := pack32 s 0 0
/-- `INF_32(s)` (R35). -/
def inf32 (s : BitVec 1) : Word32 := pack32 s (BitVec.allOnes 8) 0
/-- `NAN_32(s, p)`, a NaN when `p` is not zero (R35). -/
def nan32 (s : BitVec 1) (p : BitVec 23) : Word32 := pack32 s (BitVec.allOnes 8) p
/-- `ZERO_64(s)` (R35). -/
def zero64 (s : BitVec 1) : Word64 := pack64 s 0 0
/-- `INF_64(s)` (R35). -/
def inf64 (s : BitVec 1) : Word64 := pack64 s (BitVec.allOnes 11) 0
/-- `NAN_64(s, p)`, a NaN when `p` is not zero (R35). -/
def nan64 (s : BitVec 1) (p : BitVec 52) : Word64 := pack64 s (BitVec.allOnes 11) p

/-- What a pattern denotes: `finite neg k x` is `(-1)^neg * k * 2^x`; a zero keeps its sign. -/
inductive Value where
  | finite (neg : Bool) (mant : Nat) (exp : Int)
  | infinity (neg : Bool)
  | nan
deriving DecidableEq, Repr

/-- `val(s, e, m)` (R33, G1): the IEEE754 formula of the format `F`. -/
def val (F : Format) (s : BitVec 1) (e m : Nat) : Value :=
  if e = 2 ^ F.expBits - 1 then (if m = 0 then .infinity (s = 1) else .nan)
  else if e = 0 then .finite (s = 1) m (1 - F.bias - F.manBits)
  else .finite (s = 1) (2 ^ F.manBits + m) (e - F.bias - F.manBits)

/-- `val32(w)` (R33). -/
def val32 (w : Word32) : Value := val binary32 (sign32 w) (exp32 w).toNat (man32 w).toNat
/-- `val64(d)` (R33). -/
def val64 (d : Word64) : Value := val binary64 (sign64 d) (exp64 d).toNat (man64 d).toNat

/-- The real number a finite value is, as a rational; none for an infinity or a NaN. The two zeros
"denote numerically equal values" (R33). -/
def Value.toRat : Value → Option ℚ
  | .finite neg k x => some ((if neg then -1 else 1) * (k : ℚ) * (2 : ℚ) ^ x)
  | .infinity _ => none
  | .nan => none

end Sys2Proof.Machine
end

