-- ==== Sys2Proof/Machine/Flags.lean ====
section
/-! DEFINITION. The codec has no flag (R13). What a response reports beside its result: the status code, the
class code (R27), the lengths (R28), and the response as the wire carries it (R22). -/

namespace Sys2Proof.Machine

/-- `status`: 00 OK, 01 InvalidLength, 10 InvalidHex; 11 never produced (R27, D6). -/
def statusCode : Response → BitVec 2
  | .ok _ => 0b00#2
  | .fail .invalidLength => 0b01#2
  | .fail .invalidHex => 0b10#2

/-- `cls`: 000 ZERO, 001 SUBNORMAL, 010 NORMAL, 011 INFINITY, 100 NAN; the others never produced (R27, D13). -/
def classCode : FpClass → BitVec 3
  | .zero => 0b000#3
  | .subnormal => 0b001#3
  | .normal => 0b010#3
  | .infinity => 0b011#3
  | .nan => 0b100#3

/-- A sequence on the wire: its 8-bit length field and the elements below it. Elements at or beyond the
length "are not part of the result" (R22, U3): absent. -/
structure WireSeq (α : Type) where
  len   : BitVec 8
  elems : List α
deriving DecidableEq, Repr

/-- The response format (R22). A field outside its "defined when" column has no defined value (U3): none. -/
structure WireResponse where
  status : BitVec 2
  rbs    : Option (WireSeq Bool)
  rval   : Option (BitVec 64)
  sign   : Option (BitVec 1)
  exp    : Option (BitVec 11)
  man    : Option (BitVec 52)
  cls    : Option (BitVec 3)
  rstr   : Option (WireSeq Char8)
deriving DecidableEq, Repr

/-- A sequence as the wire carries it; none when it is longer than the wire binding's 255 (log 10). -/
def wireSeq {α : Type} (l : List α) : Option (WireSeq α) :=
  if l.length ≤ Config.sMax then some ⟨BitVec.ofNat 8 l.length, l⟩ else none

/-- A response on the wire (R22, R27); none when its sequence does not fit the wire binding (log 10). -/
def Response.toWire (r : Response) : Option WireResponse :=
  match r with
  | .fail _ => some ⟨statusCode r, none, none, none, none, none, none, none⟩
  | .ok (.bits b) => (wireSeq b).map fun q => ⟨statusCode r, some q, none, none, none, none, none, none⟩
  | .ok (.hex h) => (wireSeq h).map fun q => ⟨statusCode r, none, none, none, none, none, none, some q⟩
  | .ok (.decoded d) => (wireSeq d.text).map fun q =>
      ⟨statusCode r, none, some d.rval, some d.sign, some d.exp, some d.man, some (classCode d.cls), some q⟩

end Sys2Proof.Machine
end

