-- ==== Sys2Proof/Machine/FloatToBits.lean ====
section
/-! DEFINITION. Float to bits: narrowing to binary32 (R36, R37, R38), ENCODE32 (R39), ENCODE64 (R40). -/

namespace Sys2Proof.Machine

/-- 1 when a quotient `q` with remainder `rem` on a grid of `half` units rounds up: "`(rem > half) or
(rem == half and q is odd)`" (R36), to nearest with ties to even (R6, D9). -/
def roundUp (q rem half : Nat) : Nat := if rem > half ∨ (rem = half ∧ q % 2 = 1) then 1 else 0

/-- `NARROW_FINITE(s, e, m)`, R36's integer procedure step for step; overflow to signed infinity by R38.
For a finite operand that is not zero. -/
def narrowFinite (s : BitVec 1) (e m : Nat) : Word32 :=
  if e = 0 then s ++ (0 : BitVec 31)
  else
    let sig := 2 ^ 52 + m
    let X : Int := (e : Int) - 1023
    let sh : Nat := if X ≥ -126 then 29 else (-X - 97).toNat
    let base : Nat := if X ≥ -126 then (X + 126).toNat * 2 ^ 23 else 0
    let q := sig >>> sh
    let rem := sig % 2 ^ sh
    let half := 2 ^ (sh - 1)
    let mag := base + q + roundUp q rem half
    s ++ BitVec.ofNat 31 (if mag ≥ 0x7F800000 then 0x7F800000 else mag)

/-- The binary32 pattern ENCODE32 returns, by the operand's class (R39). A NaN's mantissa is the
parameter `NAN_NARROW`'s (R37). -/
def narrow32 (P : Params) (v : Word64) : Word32 :=
  match class64 v with
  | .zero => zero32 (sign64 v)
  | .infinity => inf32 (sign64 v)
  | .nan => nan32 (sign64 v) (P.nanNarrow (man64 v))
  | .subnormal => narrowFinite (sign64 v) (exp64 v).toNat (man64 v).toNat
  | .normal => narrowFinite (sign64 v) (exp64 v).toNat (man64 v).toNat

/-- `NAN_NARROW_REF(m) = m[51:29] OR 0b100...0` (R37): the reference instantiation, for test vectors. -/
def nanNarrowRef (m : BitVec 52) : BitVec 23 := m.extractLsb' 29 23 ||| 0x400000#23

end Sys2Proof.Machine
end

