-- ==== Sys2Proof/Machine/BitsToFloat.lean ====
section
/-! DEFINITION. Bits to float: widening to binary64 (R44, R45) and what DECODE32 (R42) and DECODE64 (R43)
return. -/

namespace Sys2Proof.Machine

/-- `WIDEN32(s, e, m)` (R44); a NaN's mantissa is the parameter `NAN_WIDEN`'s (R45). `Nat.log2` of a
subnormal mantissa is the index of its most significant 1 bit. Exact: no rounding. -/
def widen32 (P : Params) (w : Word32) : Word64 :=
  let s := sign32 w
  let e := (exp32 w).toNat
  let m := (man32 w).toNat
  match class32 w with
  | .infinity => inf64 s
  | .nan => nan64 s (P.nanWiden (man32 w))
  | .zero => zero64 s
  | .subnormal =>
      let k := Nat.log2 m
      pack64 s (BitVec.ofNat 11 (k + 874)) (BitVec.ofNat 52 ((m - 2 ^ k) * 2 ^ (52 - k)))
  | .normal => pack64 s (BitVec.ofNat 11 (e + 896)) (man32 w ++ (0 : BitVec 29))

/-- What DECODE32 returns for a pattern: the native float, the fields and the class of the pattern, and the
text of the native float (R42). -/
def decoded32 (P : Params) (w : Word32) : Decoded :=
  let rval := widen32 P w
  { rval := rval
    sign := sign32 w
    exp  := (exp32 w).setWidth 11
    man  := (man32 w).setWidth 52
    cls  := class32 w
    text := P.textRender rval }

/-- What DECODE64 returns for a pattern: "the native format is binary64: no conversion" (R43). -/
def decoded64 (P : Params) (d : Word64) : Decoded :=
  { rval := d
    sign := sign64 d
    exp  := exp64 d
    man  := man64 d
    cls  := class64 d
    text := P.textRender d }

/-- `NAN_WIDEN_REF(m) = m ++ 0^29` (R45): the reference instantiation, for test vectors. -/
def nanWidenRef (m : BitVec 23) : BitVec 52 := m ++ (0 : BitVec 29)

end Sys2Proof.Machine
end

