-- ==== Sys2Proof/Machine/Text.lean ====
section
/-! DEFINITION. The canonical text of a decode (42_bits_to_float.md section 3): the fixed texts (R47 to R49), the
reference reading `PARSE_REF` (R51), the reference rendering `TEXT_RENDER_REF` (R52), and an exact
numeral that serves where a free text breaks R50 (log 8). -/

namespace Sys2Proof.Machine

/-! Characters (R23) and the fixed texts. -/

/-- `'-'` -/
def chMinus : Char8 := 0x2D#8
/-- `'+'` -/
def chPlus : Char8 := 0x2B#8
/-- `'.'` -/
def chDot : Char8 := 0x2E#8
/-- `'e'` -/
def chE : Char8 := 0x65#8
/-- `'0'` -/
def chZero : Char8 := 0x30#8
/-- `"inf"` -/
def txtInf : Str := [0x69#8, 0x6E#8, 0x66#8]
/-- `"-inf"` -/
def txtNegInf : Str := chMinus :: txtInf
/-- `"nan"` -/
def txtNan : Str := [0x6E#8, 0x61#8, 0x6E#8]
/-- `"-nan"` -/
def txtNegNan : Str := chMinus :: txtNan
/-- `"0.0"` -/
def txtZero : Str := [0x30#8, 0x2E#8, 0x30#8]
/-- `"-0.0"` -/
def txtNegZero : Str := chMinus :: txtZero

/-! Rounding an exact non-negative rational `n / d` to a format (R36, R51). -/

/-- `n / d` rounded to the nearest natural, ties to even. -/
def roundQuot (n d : Nat) : Nat :=
  let q := n / d
  let rem := n % d
  if 2 * rem > d ∨ (2 * rem = d ∧ q % 2 = 1) then q + 1 else q

/-- The integer `x` with `2^x <= n / d < 2^(x+1)`, for positive `n` and `d`. -/
def floorLog2 (n d : Nat) : Int :=
  let x : Int := (Nat.log2 n : Int) - (Nat.log2 d : Int)
  if d * 2 ^ x.toNat ≤ n * 2 ^ (-x).toNat then x else x - 1

/-- The magnitude bits of infinity: exponent all ones, mantissa zero. -/
def infMag (F : Format) : Nat := (2 ^ F.expBits - 1) * 2 ^ F.manBits

/-- The magnitude pattern `exponent ++ mantissa`, as a natural, of the value of format `F` nearest to
`n / d`, ties to the even mantissa; infinity when the rounded magnitude leaves the finite range
(R51; the same rounding R36 gives for binary32). -/
def roundMag (F : Format) (n d : Nat) : Nat :=
  if n = 0 then 0
  else
    let x := max (floorLog2 n d) (1 - (F.bias : Int))
    let u := x - F.manBits
    let q := roundQuot (n * 2 ^ (-u).toNat) (d * 2 ^ u.toNat)
    min ((x + F.bias - 1).toNat * 2 ^ F.manBits + q) (infMag F)

/-! `PARSE_REF` (R51). -/

/-- A numeral as read: `(-1)^neg * mant * 10^exp`. -/
structure Numeral where
  neg  : Bool
  mant : Nat
  exp  : Int
deriving DecidableEq, Repr

/-- The value of a decimal digit. -/
def decDigit? (c : Char8) : Option Nat :=
  if 0x30 ≤ c.toNat ∧ c.toNat ≤ 0x39 then some (c.toNat - 0x30) else none

/-- The digits at the start of a String, and the rest of it. -/
def spanDigits : Str → List Nat × Str
  | [] => ([], [])
  | c :: cs =>
    match decDigit? c with
    | none => ([], c :: cs)
    | some d => (d :: (spanDigits cs).1, (spanDigits cs).2)

/-- `'e' ('+' | '-') digits`, to the end of the String (R51). -/
def parseExponent : Str → Option Int
  | c :: sg :: rest =>
    let r := spanDigits rest
    if c ≠ chE ∨ r.1 = [] ∨ r.2 ≠ [] then none
    else if sg = chPlus then some (natOfDigits 10 r.1)
    else if sg = chMinus then some (-(natOfDigits 10 r.1 : Int))
    else none
  | _ => none

/-- A numeral without its sign (R51): `digits '.' digits [exponent] | digits exponent`. -/
def parseUnsigned (neg : Bool) (s : Str) : Option Numeral :=
  let w := spanDigits s
  if w.1 = [] then none
  else
    match w.2 with
    | [] => none
    | c :: rest =>
      if c = chDot then
        let f := spanDigits rest
        if f.1 = [] then none
        else if f.2 = [] then some ⟨neg, natOfDigits 10 (w.1 ++ f.1), -(f.1.length : Int)⟩
        else (parseExponent f.2).map fun x => ⟨neg, natOfDigits 10 (w.1 ++ f.1), x - f.1.length⟩
      else (parseExponent (c :: rest)).map fun x => ⟨neg, natOfDigits 10 w.1, x⟩

/-- `numeral` of R51's grammar; none for a String that is not one. -/
def parseNumeral : Str → Option Numeral
  | [] => none
  | c :: cs => if c = chMinus then parseUnsigned true cs else parseUnsigned false (c :: cs)

/-- The binary64 word nearest to a numeral's value, with the numeral's sign (R51). -/
def Numeral.toWord64 (t : Numeral) : Word64 :=
  (if t.neg then 1#1 else 0#1) ++
    BitVec.ofNat 63 (roundMag binary64 (t.mant * 10 ^ t.exp.toNat) (10 ^ (-t.exp).toNat))

/-- `PARSE_REF`, "the reference reading of a text" (R51, D27); none outside the grammar. Not an operation
of the codec: it states R50 and R53 (e). -/
def parseRef (s : Str) : Option Word64 :=
  if s = txtInf then some 0x7FF0000000000000#64
  else if s = txtNegInf then some 0xFFF0000000000000#64
  else if s = txtNan then some 0x7FF8000000000000#64
  else if s = txtNegNan then some 0xFFF8000000000000#64
  else (parseNumeral s).map Numeral.toWord64

/-! The exact numeral (log 8). -/

/-- The decimal digits of a natural, as characters. -/
def decText (n : Nat) : Str := (digitsOf 10 n).map digitChar

/-- `'-'` for a set sign bit, nothing otherwise. -/
def signText (s : BitVec 1) : Str := if s = 1 then [chMinus] else []

/-- A numeral of R51's grammar whose value is exactly `mant * 2^x`: `mant * 2^x e+0`, or
`mant * 5^(-x) e-(-x)`. Part of the model, not of the spec (log 8). -/
def exactText (s : BitVec 1) (mant : Nat) (x : Int) : Str :=
  signText s ++ decText (mant * 2 ^ x.toNat * 5 ^ (-x).toNat) ++
    (chE :: (if x < 0 then chMinus else chPlus) :: decText (-x).toNat)

/-- The exact numeral of a finite native value. -/
def exactTextOf (d : Word64) : Str :=
  match val64 d with
  | .finite _ k x => exactText (sign64 d) k x
  | .infinity _ => []
  | .nan => []

/-! `TEXT_RENDER_REF` (R52, G5). -/

/-- The decimal point position `p` with `10^(p-1) <= n / d < 10^p`. -/
def pointPos (n d : Nat) : Int :=
  if d ≤ n then (digitsOf 10 (n / d)).length else 1 - ((digitsOf 10 ((d - 1) / n)).length : Int)

/-- Does the decimal `D * 10^y` round to the binary64 magnitude `mag`? -/
def decimalRoundsTo (mag D : Nat) (y : Int) : Bool :=
  roundMag binary64 (D * 10 ^ y.toNat) (10 ^ (-y).toNat) == mag

/-- The shortest digit string that rounds to the value `n / d` of magnitude pattern `mag`, nearest first,
and its point position (R52), looking at `k`, `k + 1`, ... digits. Of the `k`-digit strings only the two
neighbours of the value need a look. Equally near: the even one (DESIGN CHOICE, log 11). -/
def shortestDigits (n d mag : Nat) (p : Int) : Nat → Nat → List Nat × Int
  | 0, _ => ([], p)
  | fuel + 1, k =>
    let y := p - k
    let num := n * 10 ^ (-y).toNat
    let den := d * 10 ^ y.toNat
    let lo := num / den
    let rem := num % den
    let okLo := decimalRoundsTo mag lo y
    let okHi := decimalRoundsTo mag (lo + 1) y
    let takeLo := okLo && (!okHi || decide (2 * rem < den) || (decide (2 * rem = den) && decide (lo % 2 = 0)))
    if okLo || okHi then
      let ds := digitsOf 10 (if takeLo then lo else lo + 1)
      ((ds.reverse.dropWhile (· == 0)).reverse, p + ds.length - k)
    else shortestDigits n d mag p fuel (k + 1)

/-- The exponent of the exponent form: at least two digits (R52). -/
def expText (n : Nat) : Str := if n < 10 then chZero :: decText n else decText n

/-- The layout of R52: positional for `-4 < p <= 16`, exponent form otherwise. -/
def layoutText (s : BitVec 1) (ds : List Nat) (p : Int) : Str :=
  let t := ds.map digitChar
  let n : Int := ds.length
  signText s ++
    (if -4 < p ∧ p ≤ 16 then
      if p ≤ 0 then chZero :: chDot :: (List.replicate (-p).toNat chZero ++ t)
      else if p ≥ n then t ++ List.replicate (p - n).toNat chZero ++ [chDot, chZero]
      else t.take p.toNat ++ (chDot :: t.drop p.toNat)
    else
      let x := p - 1
      (if ds.length > 1 then t.take 1 ++ (chDot :: t.drop 1) else t) ++
        (chE :: (if x ≥ 0 then chPlus else chMinus) :: expText x.natAbs))

/-- The text of a value that is not finite or is zero (R47, R48, R49), with the text `t` of any other value. -/
def fixedTextOr (d : Word64) (t : Str) : Str :=
  match class64 d with
  | .infinity => if sign64 d = 1 then txtNegInf else txtInf
  | .zero => if sign64 d = 1 then txtNegZero else txtZero
  | .nan => if sign64 d = 1 then txtNegNan else txtNan
  | .subnormal => t
  | .normal => t

/-- The shortest-digits text of a finite value that is not zero (R52); 800 digits are more than any exact
binary64 value has. -/
def shortestTextOf (d : Word64) : Str :=
  match val64 d with
  | .finite _ k x =>
    let n := k * 2 ^ x.toNat
    let den := 2 ^ (-x).toNat
    let r := shortestDigits n den (d.toNat % 2 ^ 63) (pointPos n den) 800 1
    layoutText (sign64 d) r.1 r.2
  | .infinity _ => []
  | .nan => []

/-- `TEXT_RENDER_REF` (R52): the reference instantiation, for test vectors. -/
def textRenderRef (d : Word64) : Str := fixedTextOr d (shortestTextOf d)

end Sys2Proof.Machine
end

