-- ==== Sys2Proof/Machine/Parameters.lean ====
section
/-! DEFINITION. What the spec lets one assume of the three open parameters (R37, R45, R47 to R50), and the
parameters the machine runs with: the free values of Config, brought under exactly those constraints
(log 6, 7, 8). -/

namespace Sys2Proof.Machine

/-- What may be assumed of a parameter instantiation: "a function ... to non-zero ... mantissas" (R37, R45)
and "rules R47 to R50 of it, and nothing else" (R50). -/
structure LawfulParams (P : Params) : Prop where
  /-- R37 -/
  nanNarrow_ne_zero : ∀ m, m ≠ 0 → P.nanNarrow m ≠ 0
  /-- R45 -/
  nanWiden_ne_zero : ∀ m, m ≠ 0 → P.nanWiden m ≠ 0
  /-- R47 -/
  text_inf : P.textRender 0x7FF0000000000000#64 = txtInf
  /-- R47 -/
  text_neg_inf : P.textRender 0xFFF0000000000000#64 = txtNegInf
  /-- R48 -/
  text_zero : P.textRender 0x0000000000000000#64 = txtZero
  /-- R48 -/
  text_neg_zero : P.textRender 0x8000000000000000#64 = txtNegZero
  /-- R49 -/
  text_nan : ∀ d, class64 d = .nan → P.textRender d = if d.getLsbD 63 then txtNegNan else txtNan
  /-- R50: a numeral of the grammar that `PARSE_REF` reads as `d`, all 64 bits. -/
  text_finite : ∀ d, class64 d = .normal ∨ class64 d = .subnormal →
    (parseNumeral (P.textRender d)).isSome ∧ parseRef (P.textRender d) = some d

/-- A mantissa that is not zero: `p` itself unless it is zero. -/
def nonZero {n : Nat} (p : BitVec n) : BitVec n := if p = 0 then 1 else p

/-- The text `t` if it satisfies R50 for `d`, else the exact numeral of `d`. -/
def readableText (d : Word64) (t : Str) : Str :=
  if (parseNumeral t).isSome ∧ parseRef t = some d then t else exactTextOf d

/-- The lawful parameters made from any three functions: where a function already is lawful it is kept as
it is, so every lawful instantiation is one of these, and only lawful ones are (log 6, 7, 8). -/
def paramsOfFree (f : BitVec 52 → BitVec 23) (g : BitVec 23 → BitVec 52) (t : Word64 → Str) : Params :=
  { nanNarrow  := fun m => nonZero (f m)
    nanWiden   := fun m => nonZero (g m)
    textRender := fun d => fixedTextOr d (readableText d (t d)) }

/-- The parameters the machine runs with: FREE VALUES, of which only `LawfulParams` can be proved. -/
def codecParams : Params := paramsOfFree Config.freeNanNarrow Config.freeNanWiden Config.freeText

/-- The three reference instantiations (R37, R45, R52), used by the spec's "reference" test vectors and by
no meaning. -/
def referenceParams : Params :=
  { nanNarrow := nanNarrowRef, nanWiden := nanWidenRef, textRender := textRenderRef }

end Sys2Proof.Machine
end

