-- ==== Sys2Proof/Machine/HexText.lean ====
section
/-! DEFINITION. The hexadecimal transforms on naturals: HEXDIGITS (R55), HEXPARSE (R58) and the range check
(R56, R57, R59): 43_hex.md. -/

namespace Sys2Proof.Machine

/-- `HEX_PREFIX`, the two characters `0x` (R55, D15). -/
def hexPrefix : Str := [0x30#8, 0x78#8]

/-- `HEXDIGITS(n)`: lowercase, no leading zeros, `"0"` for 0 (R55, D16). -/
def hexDigits (n : Nat) : Str := (digitsOf 16 n).map digitChar

/-- `digitval`: the value of a character of `[0-9a-fA-F]`, none for any other (R58). -/
def hexDigit? (c : Char8) : Option Nat :=
  if 0x30 ≤ c.toNat ∧ c.toNat ≤ 0x39 then some (c.toNat - 0x30)
  else if 0x61 ≤ c.toNat ∧ c.toNat ≤ 0x66 then some (c.toNat - 0x57)
  else if 0x41 ≤ c.toNat ∧ c.toNat ≤ 0x46 then some (c.toNat - 0x37)
  else none

/-- The String after its optional base prefix `0x` or `0X`, "at most once, at the very start" (R58, D15). -/
def stripPrefix : Str → Str
  | c0 :: c1 :: rest => if c0 = 0x30#8 ∧ (c1 = 0x78#8 ∨ c1 = 0x58#8) then rest else c0 :: c1 :: rest
  | [c] => [c]
  | [] => []

/-- The values of a String's characters; none when one is no hexadecimal digit. -/
def hexValues : Str → Option (List Nat)
  | [] => some []
  | c :: cs =>
    match hexDigit? c, hexValues cs with
    | some d, some ds => some (d :: ds)
    | _, _ => none

/-- `HEXPARSE(h)`; none is `raise InvalidHex` (R58). An unbounded natural (R61). -/
def hexParse (h : Str) : Option Nat :=
  let t := stripPrefix h
  if t = [] then none else (hexValues t).map (natOfDigits 16)

/-- The natural a HexString denotes if it fits `n` bits; none is `raise InvalidHex`, from either cause
(R56, R57, R63). -/
def hexParseBelow (n : Nat) (h : Str) : Option Nat :=
  match hexParse h with
  | none => none
  | some k => if k ≥ 2 ^ n then none else some k

end Sys2Proof.Machine
end

