-- ==== Sys2Proof/Machine/Encode.lean ====
section
/-! DEFINITION. The meanings of ENCODE32 and ENCODE64 (41_float_to_bits.md section 4). Neither can fail (R41). -/

namespace Sys2Proof.Machine

/-- ENCODE32 (R39): `Ok(Bits(to_bitstring_32(w)))`. -/
def execEncode32 (v : Word64) (s : State) : Answer :=
  s.succeed (.bits (toBitString (narrow32 codecParams v)))

/-- ENCODE64 (R40): `Ok(Bits(to_bitstring_64(v)))`, the operand's own bits. -/
def execEncode64 (v : Word64) (s : State) : Answer :=
  s.succeed (.bits (toBitString v))

end Sys2Proof.Machine
end

