-- ==== Sys2Proof/Machine/DecodeOps.lean ====
section
/-! DEFINITION. The meanings of DECODE32 and DECODE64 (42_bits_to_float.md section 1). -/

namespace Sys2Proof.Machine

/-- DECODE32 (R42): the length check comes before everything (R62, R66). -/
def execDecode32 (b : BitString) (s : State) : Answer :=
  if b.length ≠ 32 then s.raise .invalidLength
  else s.succeed (.decoded (decoded32 codecParams (toWord 32 b)))

/-- DECODE64 (R43): the length check comes before everything (R62, R66). -/
def execDecode64 (b : BitString) (s : State) : Answer :=
  if b.length ≠ 64 then s.raise .invalidLength
  else s.succeed (.decoded (decoded64 codecParams (toWord 64 b)))

end Sys2Proof.Machine
end

