-- ==== Sys2Proof/Machine/Hex.lean ====
section
/-! DEFINITION. The meanings of BITSFROMHEX32, BITSFROMHEX64 and HEXFROMBITS (43_hex.md). -/

namespace Sys2Proof.Machine

/-- The hex-to-bits operations at a width: parse, range check, zero-pad on the left (R56, R57, R59). -/
def bitsFromHex (n : Nat) (h : Str) (s : State) : Answer :=
  match hexParseBelow n h with
  | none => s.raise .invalidHex
  | some k => s.succeed (.bits (toBitString (BitVec.ofNat n k)))

/-- BITSFROMHEX32 (R56). -/
def execBitsFromHex32 (h : Str) (s : State) : Answer := bitsFromHex 32 h s

/-- BITSFROMHEX64 (R57). -/
def execBitsFromHex64 (h : Str) (s : State) : Answer := bitsFromHex 64 h s

/-- HEXFROMBITS (R54): `Ok(Hex(HEX_PREFIX ++ HEXDIGITS(uint(b))))`. The empty BitString is outside the
domain: "no response is defined; a model refuses that request" (R54, D17, U2; log 16). -/
def execHexFromBits (b : BitString) (s : State) : Answer :=
  if b = [] then .refused .emptyBitString
  else s.succeed (.hex (hexPrefix ++ hexDigits (uint b)))

end Sys2Proof.Machine
end

