-- ==== Sys2Proof/Machine/Dispatch.lean ====
section
/-! DEFINITION. One arm per operation, each one direct call of its meaning. -/

namespace Sys2Proof.Machine

/-- The operation `i` performed in the state `s` (R8): one response is produced. -/
def exec (i : Instr) (s : State) : Host.Outcome State Fault Refusal :=
  match i with
  | .encode32 v => Sys2Proof.Machine.execEncode32 v s
  | .encode64 v => Sys2Proof.Machine.execEncode64 v s
  | .decode32 b => Sys2Proof.Machine.execDecode32 b s
  | .decode64 b => Sys2Proof.Machine.execDecode64 b s
  | .bitsFromHex32 h => Sys2Proof.Machine.execBitsFromHex32 h s
  | .bitsFromHex64 h => Sys2Proof.Machine.execBitsFromHex64 h s
  | .hexFromBits b => Sys2Proof.Machine.execHexFromBits b s

end Sys2Proof.Machine
end

