-- ==== Sys2Proof/Machine/Fetch.lean ====
section
/-! DEFINITION. Taking a request from the request port (R8, R12): the codec fetches no instruction. -/

namespace Sys2Proof.Machine

/-- One operation from the request `r`, the port left at `rest`: the decoded operation is performed, or the
request is refused as ill formed (R26, D8). -/
def serve (r : WireRequest) (rest : List WireRequest) (s : State) : Answer :=
  match decode r with
  | .ok i => exec i (s.withRequests rest)
  | .error .reservedOp => .refused .reservedOp

end Sys2Proof.Machine
end

