-- ==== Sys2Proof/Machine/Step.lean ====
section
/-! DEFINITION. One step: the host presents its next request and the codec produces its response (R8, R75). -/

namespace Sys2Proof.Machine

/-- One operation. With no request presented there is no such moment in a model (U11; log 2). -/
def step (s : State) : Host.Outcome State Fault Refusal :=
  match s.requests with
  | [] => .refused .noRequest
  | r :: rest => serve r rest s

/-- `s` with a request presented next, whose first `nbits` bits are those of `w` in the table's numbering
and whose other bits are 0 (log 3, log 4). -/
def State.withFetchWord (s : State) (nbits w : Nat) : State :=
  { s with requests := WireRequest.ofTableWord nbits w :: s.requests }

end Sys2Proof.Machine
end

