-- ==== Sys2Proof/Safety.lean ====
section
/-! DEFINITION. The terms claims are stated in: what it is for an operation to answer, the codec as a function of
its request (R9), what the host owes (R75), what a legal response is (R10, R27, R53, R55), and hexadecimal
numerals read as a relation (R55, R58). -/

namespace Sys2Proof.Machine

/-- The operation `i`, performed in `s`, completes with the response `r` and changes nothing else: the
requests still to come and every earlier response stand. -/
def AnswersWith (i : Instr) (s : State) (r : Response) : Prop :=
  exec i s = .next { requests := s.requests, responses := s.responses ++ [r] }

/-- The response of an operation under a parameter instantiation, `response = codec(request)` (R9); none
where no response is defined (R54). It mentions no state. -/
def respond (P : Params) : Instr → Option Response
  | .encode32 v => some (.ok (.bits (toBitString (narrow32 P v))))
  | .encode64 v => some (.ok (.bits (toBitString v)))
  | .decode32 b =>
      some (if b.length = 32 then .ok (.decoded (decoded32 P (toWord 32 b))) else .fail .invalidLength)
  | .decode64 b =>
      some (if b.length = 64 then .ok (.decoded (decoded64 P (toWord 64 b))) else .fail .invalidLength)
  | .bitsFromHex32 h =>
      some (match hexParseBelow 32 h with
        | some k => .ok (.bits (toBitString (BitVec.ofNat 32 k)))
        | none => .fail .invalidHex)
  | .bitsFromHex64 h =>
      some (match hexParseBelow 64 h with
        | some k => .ok (.bits (toBitString (BitVec.ofNat 64 k)))
        | none => .fail .invalidHex)
  | .hexFromBits b => if b = [] then none else some (.ok (.hex (hexPrefix ++ hexDigits (uint b))))

/-- "What the host must do to obtain a defined response": an `op` other than 111 and, for HEXFROMBITS, "a
BitString of at least one element ...; nothing else" (R75). -/
def Answerable (r : WireRequest) : Prop :=
  r.op ≠ 0b111#3 ∧ (r.op = 0b110#3 → r.bsLen ≠ 0)

/-- `c` is a glyph of `[0-9a-fA-F]` of value `v` (R23, R58). -/
def HexGlyph (c : Char8) (v : Nat) : Prop :=
  (v < 10 ∧ c.toNat = 0x30 + v) ∨ (10 ≤ v ∧ v < 16 ∧ (c.toNat = 0x57 + v ∨ c.toNat = 0x37 + v))

/-- `c` is a glyph of `[0-9a-f]` of value `v` (R23, R55). -/
def LowerHexGlyph (c : Char8) (v : Nat) : Prop :=
  (v < 10 ∧ c.toNat = 0x30 + v) ∨ (10 ≤ v ∧ v < 16 ∧ c.toNat = 0x57 + v)

/-- `h` is an optional `0x` or `0X` and then one or more hexadecimal digits of value `n` (R58). -/
def DenotesHex (h : Str) (n : Nat) : Prop :=
  ∃ (pre t : Str) (vs : List Nat), h = pre ++ t ∧
    (pre = [] ∨ pre = [0x30#8, 0x78#8] ∨ pre = [0x30#8, 0x58#8]) ∧ t ≠ [] ∧
    List.Forall₂ HexGlyph t vs ∧ n = vs.foldl (fun a v => 16 * a + v) 0

/-- `t` is the lowercase numeral of `n` without leading zeros, `"0"` for 0 (R55). -/
def LowerHexNumeral (t : Str) (n : Nat) : Prop :=
  ∃ vs : List Nat, t ≠ [] ∧ List.Forall₂ LowerHexGlyph t vs ∧
    n = vs.foldl (fun a v => 16 * a + v) 0 ∧ (vs = [0] ∨ vs.head? ≠ some 0)

/-- The failure table of R64: which failure an operation must report. -/
def FailureCause : Instr → Failure → Prop
  | .encode32 _, _ => False
  | .encode64 _, _ => False
  | .decode32 b, .invalidLength => b.length ≠ 32
  | .decode32 _, .invalidHex => False
  | .decode64 b, .invalidLength => b.length ≠ 64
  | .decode64 _, .invalidHex => False
  | .hexFromBits _, _ => False
  | .bitsFromHex32 _, .invalidLength => False
  | .bitsFromHex32 h, .invalidHex => ∀ n, DenotesHex h n → n ≥ 2 ^ 32
  | .bitsFromHex64 _, .invalidLength => False
  | .bitsFromHex64 h, .invalidHex => ∀ n, DenotesHex h n → n ≥ 2 ^ 64

/-- What a response must be, whatever the request: a result BitString of exactly 32 or 64 (R10, R28); a
HexString of prefix and digits (R10, R55); a decode whose native float has the sign and the kind of the
pattern (R44, R45), and whose text reads back with that class and sign, and as that float unless it is
a NaN (R53 e). -/
def Response.Legal : Response → Prop
  | .fail _ => True
  | .ok (.bits b) => b.length = 32 ∨ b.length = 64
  | .ok (.hex h) => ∃ t n, h = [0x30#8, 0x78#8] ++ t ∧ LowerHexNumeral t n
  | .ok (.decoded d) =>
      sign64 d.rval = d.sign ∧
      (class64 d.rval = .nan ↔ d.cls = .nan) ∧
      (class64 d.rval = .infinity ↔ d.cls = .infinity) ∧
      (class64 d.rval = .zero ↔ d.cls = .zero) ∧
      ∃ u, parseRef d.text = some u ∧ class64 u = class64 d.rval ∧ sign64 u = sign64 d.rval ∧
        (d.cls ≠ .nan → u = d.rval)

/-- The invariant: every response produced is a legal one. -/
def State.Inv (s : State) : Prop := ∀ r ∈ s.responses, r.Legal

end Sys2Proof.Machine
end

