-- ==== Sys2Proof/Certificates/Slice0/Obligations.lean ====
section
/-! DEFINITION. The statements for the provers. Each docstring names the rule it comes from; where a clause rests on
a passage the spec marks as its own inference or decision, or on a choice of the model's, it says so. -/

open Sys2Proof Sys2Proof.Machine

/-! ## Requests, decoding, the step -/

/-- R72: after reset, with nothing initialised, any well-formed operation that has a response may be the
first request, and it gets the response it gets anywhere. The state after reset is the model's (log 1). -/
def Obligations.AnyOperationMayBeFirstAfterReset : Prop :=
  ∀ (i : Instr) (a : Response), i.wellFormed = true → respond codecParams i = some a →
    step { State.reset with requests := [encode i] } = .next { requests := [], responses := [a] }

/-- The request presented next is decoded and performed, the port left at the requests after it (R8, R12;
the list of requests is the model's, log 1, 3). -/
def Obligations.StepPerformsTheDecodedRequest : Prop :=
  ∀ (r : WireRequest) (rest : List WireRequest) (rs : List Response) (i : Instr),
    decode r = .ok i →
    step { requests := r :: rest, responses := rs } = exec i { requests := rest, responses := rs }

/-- R26: `op = 111` is refused as no well-formed request, by the decoder and by the step; an empty port is
refused under its own name (model's choice, log 2). -/
def Obligations.StepRefusesReservedCodeAndEmptyPort : Prop :=
  (∀ (r : WireRequest) (rest : List WireRequest) (rs : List Response), r.op = 0b111#3 →
    decode r = .error .reservedOp ∧
    step { requests := r :: rest, responses := rs } = .refused .reservedOp) ∧
  ∀ rs : List Response, step { requests := [], responses := rs } = .refused .noRequest

/-- R24, R25: which operation each code selects, and its operand as the rules see it: `v = fval`, or the
sequence with `len = bs_len`, `b(i) = bs(i)`, or with `len = hx_len`, `h(i) = hx(i)`. -/
def Obligations.CodeSelectsOperationAndAssemblesOperand : Prop :=
  ∀ r : WireRequest,
    (r.op = 0b000#3 → decode r = .ok (.encode32 r.fval)) ∧
    (r.op = 0b001#3 → decode r = .ok (.encode64 r.fval)) ∧
    (∃ b : BitString, b.length = r.bsLen.toNat ∧
      (∀ i, i < r.bsLen.toNat → b[i]? = some (r.bs.getLsbD i)) ∧
      (r.op = 0b010#3 → decode r = .ok (.decode32 b)) ∧
      (r.op = 0b011#3 → decode r = .ok (.decode64 b)) ∧
      (r.op = 0b110#3 → decode r = .ok (.hexFromBits b))) ∧
    ∃ h : Str, h.length = r.hxLen.toNat ∧
      (∀ i, i < r.hxLen.toNat → h[i]? = some (r.hx.extractLsb' (8 * i) 8)) ∧
      (r.op = 0b100#3 → decode r = .ok (.bitsFromHex32 h)) ∧
      (r.op = 0b101#3 → decode r = .ok (.bitsFromHex64 h))

/-- R26, "No other encoding is reserved": every request with another code decodes to a well-formed
operation that carries that code. -/
def Obligations.EveryOtherCodeDecodesWellFormed : Prop :=
  ∀ r : WireRequest, r.op ≠ 0b111#3 → ∃ i, decode r = .ok i ∧ i.wellFormed = true ∧ opCode i = r.op

/-- Decode and encode agree on every well-formed operation, every operand value (R21, R24, R25). -/
def Obligations.DecodeOfEncodeIsTheOperation : Prop :=
  ∀ i : Instr, i.wellFormed = true → decode (encode i) = .ok i

/-- R25: an operation reads only the fields of its row, and of a sequence only the elements below its
length; requests that agree on those decode alike. -/
def Obligations.DecodeReadsOnlyTheFieldsOfItsRow : Prop :=
  ∀ r r' : WireRequest, r.op = r'.op →
    (r.op = 0b000#3 ∨ r.op = 0b001#3 → r.fval = r'.fval) →
    (r.op = 0b010#3 ∨ r.op = 0b011#3 ∨ r.op = 0b110#3 →
      r.bsLen = r'.bsLen ∧ ∀ i, i < r.bsLen.toNat → r.bs.getLsbD i = r'.bs.getLsbD i) →
    (r.op = 0b100#3 ∨ r.op = 0b101#3 →
      r.hxLen = r'.hxLen ∧
        ∀ i, i < r.hxLen.toNat → r.hx.extractLsb' (8 * i) 8 = r'.hx.extractLsb' (8 * i) 8) →
    decode r = decode r'

/-- The flat numbering of a request's bits loses none, and a request so stored is the one the very next
step performs (the model's numbering and loading, log 3, 4). -/
def Obligations.StoredRequestIsPerformedNext : Prop :=
  (∀ r : WireRequest, WireRequest.ofFlat r.toFlat = r) ∧
  ∀ (i : Instr) (s : State), i.wellFormed = true →
    step (s.withFetchWord wireBits (encode i).toFlat.toNat) = exec i s

/-- The select codes of R24 written out as spec/opcode_table.json numbers them, with the other bits 0. -/
def Obligations.WrittenOutCodesDecode : Prop :=
  decodeTableWord 8 0b000 = some (.encode32 0) ∧
  decodeTableWord 8 0b001 = some (.encode64 0) ∧
  decodeTableWord 8 0b010 = some (.decode32 []) ∧
  decodeTableWord 8 0b011 = some (.decode64 []) ∧
  decodeTableWord 8 0b100 = some (.bitsFromHex32 []) ∧
  decodeTableWord 8 0b101 = some (.bitsFromHex64 []) ∧
  decodeTableWord 8 0b110 = some (.hexFromBits []) ∧
  decodeTableWord 8 0b111 = none

/-! ## Sequences, fields, classes -/

/-- 00_scope.md 5.2 and R18 a, b: the first element is the most significant bit, `to_word_N` and
`to_bitstring_N` are inverse, and both agree with `uint`. -/
def Obligations.BitStringsAreMostSignificantFirst : Prop :=
  ∀ (n : Nat) (w : BitVec n),
    (toBitString w).length = n ∧
    (∀ i, i < n → (toBitString w)[i]? = some (w.getLsbD (n - 1 - i))) ∧
    uint (toBitString w) = w.toNat ∧
    toWord n (toBitString w) = w ∧
    ∀ b : BitString, b.length = n → toBitString (toWord n b) = b

/-- R31, whole: the three fields as slices of the word and as elements of its BitString, most significant
first; `PACK32` is the inverse; the rule's example. -/
def Obligations.Extract32PartitionsTheWord : Prop :=
  (∀ w : Word32,
    (∀ i, i < 1 → (sign32 w).getLsbD i = w.getLsbD 31) ∧
    (∀ i, i < 8 → (exp32 w).getLsbD i = w.getLsbD (23 + i)) ∧
    (∀ i, i < 23 → (man32 w).getLsbD i = w.getLsbD i) ∧
    toBitString w = toBitString (sign32 w) ++ (toBitString (exp32 w) ++ toBitString (man32 w)) ∧
    pack32 (sign32 w) (exp32 w) (man32 w) = w) ∧
  sign32 0x4048F5C3#32 = 0#1 ∧ exp32 0x4048F5C3#32 = 128#8 ∧ man32 0x4048F5C3#32 = 0x48F5C3#23

/-- R32, whole: the same at width 64. -/
def Obligations.Extract64PartitionsTheWord : Prop :=
  (∀ d : Word64,
    (∀ i, i < 1 → (sign64 d).getLsbD i = d.getLsbD 63) ∧
    (∀ i, i < 11 → (exp64 d).getLsbD i = d.getLsbD (52 + i)) ∧
    (∀ i, i < 52 → (man64 d).getLsbD i = d.getLsbD i) ∧
    toBitString d = toBitString (sign64 d) ++ (toBitString (exp64 d) ++ toBitString (man64 d))) ∧
  (∀ (s : BitVec 1) (e : BitVec 11) (m : BitVec 52),
    sign64 (pack64 s e m) = s ∧ exp64 (pack64 s e m) = e ∧ man64 (pack64 s e m) = m) ∧
  sign64 0x40091EB851EB851F#64 = 0#1 ∧ exp64 0x40091EB851EB851F#64 = 1024#11 ∧
    man64 0x40091EB851EB851F#64 = 0x91EB851EB851F#52

/-- R33 with R34: the class of a pattern is the kind of value it denotes, at both widths; a subnormal lies
strictly between zero and the least normal, a normal at or above it. -/
def Obligations.ClassIsTheKindOfTheDenotedValue : Prop :=
  (∀ w : Word32,
    (class32 w = .nan ↔ val32 w = .nan) ∧
    (class32 w = .infinity ↔ val32 w = .infinity (w.getLsbD 31)) ∧
    (class32 w = .zero ↔ (val32 w).toRat = some 0) ∧
    (class32 w = .subnormal ↔ ∃ x, (val32 w).toRat = some x ∧ x ≠ 0 ∧ |x| < (2 : ℚ) ^ (-126 : ℤ)) ∧
    (class32 w = .normal ↔ ∃ x, (val32 w).toRat = some x ∧ (2 : ℚ) ^ (-126 : ℤ) ≤ |x|)) ∧
  ∀ d : Word64,
    (class64 d = .nan ↔ val64 d = .nan) ∧
    (class64 d = .infinity ↔ val64 d = .infinity (d.getLsbD 63)) ∧
    (class64 d = .zero ↔ (val64 d).toRat = some 0) ∧
    (class64 d = .subnormal ↔ ∃ x, (val64 d).toRat = some x ∧ x ≠ 0 ∧ |x| < (2 : ℚ) ^ (-1022 : ℤ)) ∧
    (class64 d = .normal ↔ ∃ x, (val64 d).toRat = some x ∧ (2 : ℚ) ^ (-1022 : ℤ) ≤ |x|)

/-! ## ENCODE32, ENCODE64 -/

/-- R41, whole: every `fval` gives status OK and a BitString of the stated length; neither encode reads
another field, and neither depends on anything presented before or after. -/
def Obligations.EncodesAreTotalAndReadOnlyFval : Prop :=
  ∀ (op : BitVec 3) (v : Word64), op = 0b000#3 ∨ op = 0b001#3 →
    ∃ b : BitString, b.length = (if op = 0b000#3 then 32 else 64) ∧
      ∀ (r : WireRequest) (rest : List WireRequest) (rs : List Response), r.op = op → r.fval = v →
        step { requests := r :: rest, responses := rs } =
          .next { requests := rest, responses := rs ++ [.ok (.bits b)] }

/-- R40: ENCODE64 returns the operand's own 64 bits, sign first, for every operand (that this covers NaNs is
the spec's inference from R5). -/
def Obligations.Encode64ReturnsTheOperandsBits : Prop :=
  ∀ (v : Word64) (s : State), ∃ b : BitString,
    AnswersWith (.encode64 v) s (.ok (.bits b)) ∧ b.length = 64 ∧
    ∀ i, i < 64 → b[i]? = some (v.getLsbD (63 - i))

/-- R39 case ZERO, R35 d: a zero gives the zero pattern of its sign. -/
def Obligations.Encode32OfZeroKeepsTheSign : Prop :=
  ∀ (v : Word64) (s : State), v.toNat % 2 ^ 63 = 0 →
    AnswersWith (.encode32 v) s (.ok (.bits (v.getLsbD 63 :: List.replicate 31 false)))

/-- R38, R35 a, b: from the overflow threshold `(2 - 2^-24) * 2^127` up to and including infinity the
result is infinity with the operand's sign and status OK; below the threshold it is no infinity and no
NaN. (The threshold is the spec's inference from R36.) -/
def Obligations.Encode32OverflowsToSignedInfinityExactly : Prop :=
  ∀ (v : Word64) (s : State),
    (0x47EFFFFFF0000000 ≤ v.toNat % 2 ^ 63 → v.toNat % 2 ^ 63 ≤ 0x7FF0000000000000 →
      AnswersWith (.encode32 v) s
        (.ok (.bits (v.getLsbD 63 :: (List.replicate 8 true ++ List.replicate 23 false))))) ∧
    (v.toNat % 2 ^ 63 < 0x47EFFFFFF0000000 →
      ∃ w : Word32, AnswersWith (.encode32 v) s (.ok (.bits (toBitString w))) ∧
        sign32 w = sign64 v ∧ class32 w ≠ .infinity ∧ class32 w ≠ .nan)

/-- R36: below the threshold the result is the binary32 value nearest to the operand, of its sign, and of
two equally near values the one whose mantissa field is even. (That R36's integer procedure meets this
is the spec's inference; the meaning of the mode is its general knowledge, G2.) -/
def Obligations.Encode32RoundsToNearestTiesToEven : Prop :=
  ∀ (v : Word64) (s : State) (x : ℚ), v.toNat % 2 ^ 63 < 0x47EFFFFFF0000000 →
    (val64 v).toRat = some x →
    ∃ (w : Word32) (y : ℚ), AnswersWith (.encode32 v) s (.ok (.bits (toBitString w))) ∧
      sign32 w = sign64 v ∧ (val32 w).toRat = some y ∧
      ∀ (u : Word32) (z : ℚ), (val32 u).toRat = some z →
        |y - x| ≤ |z - x| ∧ (|y - x| = |z - x| → z ≠ y → (man32 w).toNat % 2 = 0)

/-- R37: a NaN gives a binary32 NaN of the operand's sign, its mantissa one function of the operand's
mantissa that is never zero. Which function is a free value (log 6): true for every one. -/
def Obligations.Encode32OfNanIsNanOfTheSameSign : Prop :=
  ∃ f : BitVec 52 → BitVec 23, (∀ m, m ≠ 0 → f m ≠ 0) ∧
    ∀ (v : Word64) (s : State), 0x7FF0000000000000 < v.toNat % 2 ^ 63 →
      AnswersWith (.encode32 v) s
        (.ok (.bits (v.getLsbD 63 :: (List.replicate 8 true ++ toBitString (f (v.extractLsb' 0 52))))))

/-! ## DECODE32, DECODE64 -/

/-- R62, whole: the two causes, the operations that raise it and no other, its status code, and that the
response carries the status and nothing else. -/
def Obligations.InvalidLengthIsRaisedExactlyByDecodesOfWrongWidth : Prop :=
  (∀ (b : BitString) (s : State), b.length ≠ 32 → AnswersWith (.decode32 b) s (.fail .invalidLength)) ∧
  (∀ (b : BitString) (s : State), b.length ≠ 64 → AnswersWith (.decode64 b) s (.fail .invalidLength)) ∧
  (∀ (i : Instr) (s : State), AnswersWith i s (.fail .invalidLength) →
    (∃ b, i = .decode32 b ∧ b.length ≠ 32) ∨ ∃ b, i = .decode64 b ∧ b.length ≠ 64) ∧
  (Response.fail .invalidLength).toWire = some ⟨0b01#2, none, none, none, none, none, none, none⟩

/-- R42 with R31, R34: for exactly 32 elements, the fields of the pattern zero-extended, its class, and the
text of the native value by the machine's `TEXT_RENDER`. -/
def Obligations.Decode32ReportsFieldsAndClass : Prop :=
  ∀ (b : BitString) (s : State), b.length = 32 →
    ∃ d : Decoded, AnswersWith (.decode32 b) s (.ok (.decoded d)) ∧
      d.sign.toNat = uint (b.take 1) ∧
      d.exp.toNat = uint ((b.drop 1).take 8) ∧
      d.man.toNat = uint (b.drop 9) ∧
      (d.exp.toNat = 255 → d.man = 0 → d.cls = .infinity) ∧
      (d.exp.toNat = 255 → d.man ≠ 0 → d.cls = .nan) ∧
      (d.exp.toNat = 0 → d.man = 0 → d.cls = .zero) ∧
      (d.exp.toNat = 0 → d.man ≠ 0 → d.cls = .subnormal) ∧
      (d.exp.toNat ≠ 255 → d.exp.toNat ≠ 0 → d.cls = .normal) ∧
      d.text = codecParams.textRender d.rval

/-- R44: unless the pattern is a NaN, `rval` has its sign and denotes its value, exactly (exactness is the
spec's inference from R33). -/
def Obligations.Decode32DenotesTheSameValue : Prop :=
  ∀ (b : BitString) (s : State), b.length = 32 → class32 (toWord 32 b) ≠ .nan →
    ∃ d : Decoded, AnswersWith (.decode32 b) s (.ok (.decoded d)) ∧
      sign64 d.rval = sign32 (toWord 32 b) ∧
      (val64 d.rval).toRat = (val32 (toWord 32 b)).toRat ∧
      (class32 (toWord 32 b) = .infinity → class64 d.rval = .infinity)

/-- R45: a NaN pattern gives a binary64 NaN of its sign, its mantissa one function of the pattern's mantissa
that is never zero. Which function is a free value (log 7): true for every one. -/
def Obligations.Decode32OfNanIsNanOfTheSameSign : Prop :=
  ∃ g : BitVec 23 → BitVec 52, (∀ m, m ≠ 0 → g m ≠ 0) ∧
    ∀ (w : Word32) (s : State), class32 w = .nan →
      ∃ d : Decoded, AnswersWith (.decode32 (toBitString w)) s (.ok (.decoded d)) ∧
        d.cls = .nan ∧ d.sign = sign32 w ∧
        d.rval = sign32 w ++ (BitVec.allOnes 11 ++ g (man32 w))

/-- R43 with R32, R34: for exactly 64 elements `rval` is the pattern itself, with its fields, class and text
(that this covers NaNs is the spec's inference from R5). -/
def Obligations.Decode64ReturnsThePattern : Prop :=
  ∀ (b : BitString) (s : State), b.length = 64 →
    ∃ d : Decoded, AnswersWith (.decode64 b) s (.ok (.decoded d)) ∧
      (∀ i, i < 64 → b[i]? = some (d.rval.getLsbD (63 - i))) ∧
      d.sign.toNat = uint (b.take 1) ∧
      d.exp.toNat = uint ((b.drop 1).take 11) ∧
      d.man.toNat = uint (b.drop 12) ∧
      (d.exp.toNat = 2047 → d.man = 0 → d.cls = .infinity) ∧
      (d.exp.toNat = 2047 → d.man ≠ 0 → d.cls = .nan) ∧
      (d.exp.toNat = 0 → d.man = 0 → d.cls = .zero) ∧
      (d.exp.toNat = 0 → d.man ≠ 0 → d.cls = .subnormal) ∧
      (d.exp.toNat ≠ 2047 → d.exp.toNat ≠ 0 → d.cls = .normal) ∧
      d.text = codecParams.textRender d.rval

/-! ## The canonical text -/

/-- R47, whole: the texts of the infinities, as values of `TEXT_RENDER` and as decodes of the source's two
BitStrings. -/
def Obligations.InfinitiesReadInfAndMinusInf : Prop :=
  codecParams.textRender 0x7FF0000000000000#64 = [0x69#8, 0x6E#8, 0x66#8] ∧
  codecParams.textRender 0xFFF0000000000000#64 = [0x2D#8, 0x69#8, 0x6E#8, 0x66#8] ∧
  (∀ s : State, ∃ d : Decoded, d.text = [0x69#8, 0x6E#8, 0x66#8] ∧
    AnswersWith (.decode32 (false :: (List.replicate 8 true ++ List.replicate 23 false))) s
      (.ok (.decoded d))) ∧
  ∀ s : State, ∃ d : Decoded, d.text = [0x2D#8, 0x69#8, 0x6E#8, 0x66#8] ∧
    AnswersWith (.decode32 (true :: (List.replicate 8 true ++ List.replicate 23 false))) s
      (.ok (.decoded d))

/-- R48, R49: the texts of the zeros and of every NaN (decision D14 of the spec). -/
def Obligations.ZerosAndNansHaveTheirTexts : Prop :=
  codecParams.textRender 0x0000000000000000#64 = [0x30#8, 0x2E#8, 0x30#8] ∧
  codecParams.textRender 0x8000000000000000#64 = [0x2D#8, 0x30#8, 0x2E#8, 0x30#8] ∧
  ∀ d : Word64, 0x7FF0000000000000 < d.toNat % 2 ^ 63 →
    codecParams.textRender d =
      if d.getLsbD 63 then [0x2D#8, 0x6E#8, 0x61#8, 0x6E#8] else [0x6E#8, 0x61#8, 0x6E#8]

/-- R50 and R53 e (decision D27): the text a decode returns is read by `PARSE_REF` with the class and sign
of `rval`, and as `rval` itself unless `rval` is a NaN whose mantissa is not `1 ++ 0^51`. True for every
free text (log 8). -/
def Obligations.DecodedTextReadsBack : Prop :=
  ∀ (i : Instr) (s : State) (d : Decoded), AnswersWith i s (.ok (.decoded d)) →
    ∃ u, parseRef d.text = some u ∧ class64 u = class64 d.rval ∧ sign64 u = sign64 d.rval ∧
      (class64 d.rval ≠ .nan ∨ man64 d.rval = 0x8000000000000#52 → u = d.rval)

/-- R46, R23: the text of a decode is not empty, and holds only digits, `'.'`, `'e'`, `'+'`, `'-'` and the
letters of `inf` and `nan`, whatever the free text is (log 8). -/
def Obligations.DecodedTextHoldsOnlyItsGlyphs : Prop :=
  ∀ (i : Instr) (s : State) (d : Decoded), AnswersWith i s (.ok (.decoded d)) →
    d.text ≠ [] ∧ ∀ c ∈ d.text, (0x30 ≤ c.toNat ∧ c.toNat ≤ 0x39) ∨ c = 0x2E#8 ∨ c = 0x65#8 ∨ c = 0x2B#8 ∨
      c = 0x2D#8 ∨ c = 0x69#8 ∨ c = 0x6E#8 ∨ c = 0x66#8 ∨ c = 0x61#8

/-- R37, R45, the reference instantiations (the spec's general knowledge, G3): the top 23 mantissa bits with
bit 22 forced to 1, and the mantissa above 29 zero bits; neither is zero where it is read; and the rules'
examples. Used by no meaning. -/
def Obligations.ReferenceNanMapsAreAsTheRulesGiveThem : Prop :=
  (∀ (m : BitVec 52) (i : Nat), i < 22 → (nanNarrowRef m).getLsbD i = m.getLsbD (29 + i)) ∧
  (∀ m : BitVec 52, (nanNarrowRef m).getLsbD 22 = true) ∧
  (∀ (m : BitVec 23) (i : Nat), (nanWidenRef m).getLsbD i = (decide (29 ≤ i) && m.getLsbD (i - 29))) ∧
  (∀ m : BitVec 23, m ≠ 0 → nanWidenRef m ≠ 0) ∧
  narrow32 referenceParams 0x7FF8000000000000#64 = 0x7FC00000#32 ∧
  narrow32 referenceParams 0xFFF8000000000000#64 = 0xFFC00000#32 ∧
  narrow32 referenceParams 0x7FF0000000000001#64 = 0x7FC00000#32 ∧
  widen32 referenceParams 0x7FC00000#32 = 0x7FF8000000000000#64 ∧
  widen32 referenceParams 0x7F800001#32 = 0x7FF0000020000000#64

/-- R37, R45, R47 to R50: whatever the free values are, the parameters made from them are lawful; and every
lawful instantiation is one of these, so the model assumes no more of the parameters than the rules do. -/
def Obligations.FreeParametersAreExactlyTheLawfulOnes : Prop :=
  (∀ (f : BitVec 52 → BitVec 23) (g : BitVec 23 → BitVec 52) (t : Word64 → Str),
    LawfulParams (paramsOfFree f g t)) ∧
  ∀ P : Params, LawfulParams P →
    (∀ m, m ≠ 0 → (paramsOfFree P.nanNarrow P.nanWiden P.textRender).nanNarrow m = P.nanNarrow m) ∧
    (∀ m, m ≠ 0 → (paramsOfFree P.nanNarrow P.nanWiden P.textRender).nanWiden m = P.nanWiden m) ∧
    (paramsOfFree P.nanNarrow P.nanWiden P.textRender).textRender = P.textRender

/-! ## Round trips through the float -/

/-- R53 a (derived by the spec): ENCODE64 then DECODE64 gives the operand back, every 64-bit word. -/
def Obligations.Decode64OfEncode64IsTheOperand : Prop :=
  ∀ (v : Word64) (s s' : State), ∃ (b : BitString) (d : Decoded),
    AnswersWith (.encode64 v) s (.ok (.bits b)) ∧ AnswersWith (.decode64 b) s' (.ok (.decoded d)) ∧
    d.rval = v

/-- R53 b (derived by the spec): for a finite operand, ENCODE32 then DECODE32 gives it back exactly when it
is a binary32 value. -/
def Obligations.Decode32OfEncode32IsExactOnBinary32Values : Prop :=
  ∀ (v : Word64) (s s' : State) (x : ℚ), (val64 v).toRat = some x →
    ∃ (b : BitString) (d : Decoded),
      AnswersWith (.encode32 v) s (.ok (.bits b)) ∧ AnswersWith (.decode32 b) s' (.ok (.decoded d)) ∧
      (d.rval = v ↔ ∃ w : Word32, sign32 w = sign64 v ∧ (val32 w).toRat = some x)

/-- R53 c (derived by the spec): DECODE32 then ENCODE32 gives the BitString back, unless it is a NaN. -/
def Obligations.Encode32OfDecode32IsTheBitString : Prop :=
  ∀ (b : BitString) (s s' : State), b.length = 32 → class32 (toWord 32 b) ≠ .nan →
    ∃ d : Decoded, AnswersWith (.decode32 b) s (.ok (.decoded d)) ∧
      AnswersWith (.encode32 d.rval) s' (.ok (.bits b))

/-- R53 d (derived by the spec): a NaN stays a NaN of its sign through both operations in both orders at
width 32, for every free mantissa; and under the two reference instantiations (R37, R45) DECODE32 then
ENCODE32 keeps the word exactly when mantissa bit 22 is 1. -/
def Obligations.NansKeepClassAndSignAtWidth32 : Prop :=
  (∀ (v : Word64) (s s' : State), class64 v = .nan → ∃ (b : BitString) (d : Decoded),
    AnswersWith (.encode32 v) s (.ok (.bits b)) ∧ AnswersWith (.decode32 b) s' (.ok (.decoded d)) ∧
    d.cls = .nan ∧ class64 d.rval = .nan ∧ sign64 d.rval = sign64 v) ∧
  (∀ (w : Word32) (s s' : State), class32 w = .nan → ∃ (d : Decoded) (u : Word32),
    AnswersWith (.decode32 (toBitString w)) s (.ok (.decoded d)) ∧
    AnswersWith (.encode32 d.rval) s' (.ok (.bits (toBitString u))) ∧
    class32 u = .nan ∧ sign32 u = sign32 w) ∧
  ∀ w : Word32, class32 w = .nan →
    (narrow32 referenceParams (widen32 referenceParams w) = w ↔ w.getLsbD 22 = true)

/-! ## The hexadecimal transforms -/

/-- R54, R55: HEXFROMBITS returns `0x` and the lowercase numeral of `uint(b)` without leading zeros, of the
length the rule gives (the prefix and the leading zeros are decisions D15, D16 of the spec). -/
def Obligations.HexFromBitsRendersTheInteger : Prop :=
  ∀ (b : BitString) (s : State), b ≠ [] →
    ∃ t : Str, AnswersWith (.hexFromBits b) s (.ok (.hex ([0x30#8, 0x78#8] ++ t))) ∧
      LowerHexNumeral t (uint b) ∧
      t.length = max 1 (((b.dropWhile (fun x => x == false)).length + 3) / 4)

/-- R54: the empty BitString is outside the domain and refused, from every state (decision D17). -/
def Obligations.HexFromBitsRefusesTheEmptyBitString : Prop :=
  ∀ s : State, exec (.hexFromBits []) s = .refused .emptyBitString

/-- R56, R57, R59: a numeral whose value fits gives the `N`-element BitString of that value, `N` 32 or 64. -/
def Obligations.BitsFromHexPadsTheValue : Prop :=
  ∀ (h : Str) (n : Nat) (s : State), DenotesHex h n →
    (n < 2 ^ 32 → ∃ b : BitString, AnswersWith (.bitsFromHex32 h) s (.ok (.bits b)) ∧
      b.length = 32 ∧ uint b = n) ∧
    (n < 2 ^ 64 → ∃ b : BitString, AnswersWith (.bitsFromHex64 h) s (.ok (.bits b)) ∧
      b.length = 64 ∧ uint b = n)

/-- R56, R57, R58, R63: a String that is no numeral, or one whose value does not fit, fails with
`InvalidHex`; no other operation raises it; its status is 10 and nothing else is carried. (The prefix and
the empty String are decisions D15, D18 of the spec.) -/
def Obligations.InvalidHexIsRaisedExactlyByBadOrLargeNumerals : Prop :=
  (∀ (h : Str) (s : State), AnswersWith (.bitsFromHex32 h) s (.fail .invalidHex) ↔
    ¬ ∃ n, DenotesHex h n ∧ n < 2 ^ 32) ∧
  (∀ (h : Str) (s : State), AnswersWith (.bitsFromHex64 h) s (.fail .invalidHex) ↔
    ¬ ∃ n, DenotesHex h n ∧ n < 2 ^ 64) ∧
  (∀ (i : Instr) (s : State), AnswersWith i s (.fail .invalidHex) →
    (∃ h, i = .bitsFromHex32 h) ∨ ∃ h, i = .bitsFromHex64 h) ∧
  (Response.fail .invalidHex).toWire = some ⟨0b10#2, none, none, none, none, none, none, none⟩

/-- R61 (the spec's inference): the value of a digit sequence is too large for `N` bits exactly when more
than `N / 4` digits remain after its leading zero digits; no high digit is dropped. -/
def Obligations.RangeCheckCountsSignificantDigits : Prop :=
  ∀ (t : Str) (s : State), t ≠ [] → (∀ c ∈ t, ∃ v, HexGlyph c v) →
    (AnswersWith (.bitsFromHex32 t) s (.fail .invalidHex) ↔
      (t.dropWhile (fun c => c == 0x30#8)).length > 8) ∧
    (AnswersWith (.bitsFromHex64 t) s (.fail .invalidHex) ↔
      (t.dropWhile (fun c => c == 0x30#8)).length > 16)

/-- R60 (the spec's inference extends the source's law): HEXFROMBITS then BITSFROMHEXN gives the `N`-bit
numeral of `uint(b)`, which is `b` itself when `b` has `N` elements. -/
def Obligations.BitsFromHexOfHexFromBitsIsTheNumeral : Prop :=
  ∀ (b : BitString) (s s' : State), b ≠ [] → ∃ h : Str,
    AnswersWith (.hexFromBits b) s (.ok (.hex h)) ∧
    (uint b < 2 ^ 32 → ∃ c : BitString, AnswersWith (.bitsFromHex32 h) s' (.ok (.bits c)) ∧
      c.length = 32 ∧ uint c = uint b ∧ (b.length = 32 → c = b)) ∧
    (uint b < 2 ^ 64 → ∃ c : BitString, AnswersWith (.bitsFromHex64 h) s' (.ok (.bits c)) ∧
      c.length = 64 ∧ uint c = uint b ∧ (b.length = 64 → c = b))

/-- R60: the hexadecimal round trip reproduces what an encode returned. The source's law says so at width 32
for every finite operand; that it also holds for infinities and NaNs, and at width 64, is the spec's own
inference (R60, derived from R54, R55, R58, R59). -/
def Obligations.HexRoundTripReproducesAnEncode : Prop :=
  ∀ (v : Word64) (s s1 s2 : State),
    (∃ (b : BitString) (h : Str), AnswersWith (.encode32 v) s (.ok (.bits b)) ∧
      AnswersWith (.hexFromBits b) s1 (.ok (.hex h)) ∧ AnswersWith (.bitsFromHex32 h) s2 (.ok (.bits b))) ∧
    ∃ (b : BitString) (h : Str), AnswersWith (.encode64 v) s (.ok (.bits b)) ∧
      AnswersWith (.hexFromBits b) s1 (.ok (.hex h)) ∧ AnswersWith (.bitsFromHex64 h) s2 (.ok (.bits b))

/-! ## The whole machine -/

/-- R9, whole: the response is a function of the request alone, the same for requests that select the same
operation with the same operand, in every state; nothing else changes. -/
def Obligations.ResponseIsAFunctionOfTheRequestAlone : Prop :=
  ∃ c : WireRequest → Option Response,
    (∀ r r', decode r = decode r' → c r = c r') ∧
    (∀ r, Answerable r → (c r).isSome) ∧
    ∀ (r : WireRequest) (a : Response) (rest : List WireRequest) (rs : List Response), c r = some a →
      step { requests := r :: rest, responses := rs } = .next { requests := rest, responses := rs ++ [a] }

/-- Frame of every operation (R7, R9): one response is added, the requests to come and the earlier responses
stand; and every operation but HEXFROMBITS of the empty BitString completes (R74, R75). -/
def Obligations.EveryOperationAddsExactlyOneResponse : Prop :=
  (∀ (i : Instr) (s t : State), exec i s = .next t →
    t.requests = s.requests ∧ ∃ a, t.responses = s.responses ++ [a]) ∧
  ∀ (i : Instr) (s : State), i ≠ .hexFromBits [] → ∃ a, AnswersWith i s a

/-- R64, the complete failure table: an operation that answers reports a failure exactly in the case the
table names, and an OK result otherwise. -/
def Obligations.FailureTableIsComplete : Prop :=
  ∀ (i : Instr) (s : State) (a : Response), AnswersWith i s a →
    (∀ k, a = .fail k ↔ FailureCause i k) ∧
    ((∀ k, ¬ FailureCause i k) → ∃ res, a = .ok res)

/-- R67 and R19: the same request presented again gives the same response again, a failure included. -/
def Obligations.SameRequestAgainGivesSameResponse : Prop :=
  ∀ (r : WireRequest) (rest : List WireRequest) (rs : List Response), Answerable r →
    ∃ a, step { requests := r :: r :: rest, responses := rs } =
        .next { requests := r :: rest, responses := rs ++ [a] } ∧
      step { requests := r :: rest, responses := rs ++ [a] } =
        .next { requests := rest, responses := rs ++ [a] ++ [a] }

/-- R75, R12: a run of `n` answerable requests, from any state, is over after `n` steps, and its outcome is
the list of the `n` responses, each that of its own request (decision D24). -/
def Obligations.RunProducesTheListOfResponses : Prop :=
  ∃ c : WireRequest → Response, ∀ (p rest : List WireRequest) (rs : List Response),
    (∀ r ∈ p, Answerable r) →
    Sys2Proof.core.run p.length (State.mk (p ++ rest) rs) = .next (State.mk rest (rs ++ p.map c))

/-- R20 a, e: presented in any other order, the requests of a program get the same responses. -/
def Obligations.OrderOfRequestsDoesNotMatter : Prop :=
  ∀ (p q : List WireRequest) (rs rs' : List Response), p.Perm q → (∀ r ∈ p, Answerable r) →
    ∃ as bs : List Response,
      Sys2Proof.core.run p.length (State.mk p rs) = .next (State.mk [] (rs ++ as)) ∧
      Sys2Proof.core.run q.length (State.mk q rs') = .next (State.mk [] (rs' ++ bs)) ∧
      as.length = p.length ∧ bs.length = q.length ∧ (p.zip as).Perm (q.zip bs)

/-- R10, R28, R55, R53 e: every step from a state whose responses are all legal leaves them all legal. -/
def Obligations.StepKeepsResponsesLegal : Prop :=
  ∀ s t : State, s.Inv → step s = .next t → t.Inv

/-- The state after reset has only legal responses (it has none: the model's choice, log 1). -/
def Obligations.ResetHasOnlyLegalResponses : Prop :=
  State.reset.Inv ∧ State.reset = { requests := [], responses := [] }

/-- R27, R28, R22: the wire codes of statuses and classes, the length of a result BitString by operation, and
which fields a response defines (code values are decisions D6, D13 of the spec). -/
def Obligations.ResponsesOnTheWire : Prop :=
  (∀ (i : Instr) (s : State) (b : BitString), AnswersWith i s (.ok (.bits b)) →
    ∃ q : WireSeq Bool, (Response.ok (.bits b)).toWire =
        some ⟨0b00#2, some q, none, none, none, none, none, none⟩ ∧ q.elems = b ∧
      (opCode i = 0b000#3 ∨ opCode i = 0b100#3 → q.len = 32#8) ∧
      (opCode i = 0b001#3 ∨ opCode i = 0b101#3 → q.len = 64#8)) ∧
  (∀ d : Decoded, d.text.length ≤ 255 → ∃ q : WireSeq Char8, (Response.ok (.decoded d)).toWire =
      some ⟨0b00#2, none, some d.rval, some d.sign, some d.exp, some d.man, some (classCode d.cls), some q⟩ ∧
    q.len.toNat = d.text.length ∧ q.elems = d.text) ∧
  (∀ a, statusCode a ≠ 0b11#2) ∧
  classCode .zero = 0b000#3 ∧ classCode .subnormal = 0b001#3 ∧ classCode .normal = 0b010#3 ∧
    classCode .infinity = 0b011#3 ∧ classCode .nan = 0b100#3

/-- A HexString that HEXFROMBITS returns for a BitString of the wire's length fits the wire's `rstr` (R22,
R54; `SMAX` 255 is decision D4). -/
def Obligations.HexStringsFitTheWire : Prop :=
  ∀ (b : BitString) (s : State) (h : Str), (Instr.hexFromBits b).wellFormed = true →
    AnswersWith (.hexFromBits b) s (.ok (.hex h)) →
    h.length ≤ 66 ∧ ∃ q : WireSeq Char8, (Response.ok (.hex h)).toWire =
      some ⟨0b00#2, none, none, none, none, none, none, some q⟩ ∧ q.len.toNat = h.length ∧ q.elems = h
end

