-- ==== Sys2Proof/Laws/Bits.lean ====
section
/-! SUPPORT. BitStrings, words and `uint` (R18). -/

namespace Sys2Proof.Machine

theorem bitsBelow_length {n : Nat} (w : BitVec n) (k : Nat) : (bitsBelow w k).length = k := by
  induction k with
  | zero => rfl
  | succ k ih => simp [bitsBelow, ih]

theorem toBitString_length {n : Nat} (w : BitVec n) : (toBitString w).length = n := bitsBelow_length w n

theorem bitsBelow_getElem? {n : Nat} (w : BitVec n) (k i : Nat) (h : i < k) :
    (bitsBelow w k)[i]? = some (w.getLsbD (k - 1 - i)) := by
  induction k generalizing i with
  | zero => omega
  | succ k ih =>
    cases i with
    | zero => simp [bitsBelow]
    | succ i =>
      have hi : i < k := by omega
      simp only [bitsBelow, List.getElem?_cons_succ, ih i hi]
      congr 2; omega

theorem toBitString_getElem? {n : Nat} (w : BitVec n) (i : Nat) (h : i < n) :
    (toBitString w)[i]? = some (w.getLsbD (n - 1 - i)) := bitsBelow_getElem? w n i h

theorem uint_bitsBelow {n : Nat} (w : BitVec n) (k : Nat) : uint (bitsBelow w k) = w.toNat % 2 ^ k := by
  induction k with
  | zero => simp [bitsBelow, uint, Nat.mod_one]
  | succ k ih =>
    simp only [bitsBelow, uint, ih, bitsBelow_length, BitVec.getLsbD]
    rw [Nat.mod_pow_succ, Nat.toNat_testBit]; ring

/-- `uint` of a word's BitString is the word's number (R18). -/
theorem uint_toBitString {n : Nat} (w : BitVec n) : uint (toBitString w) = w.toNat := by
  rw [toBitString, uint_bitsBelow, Nat.mod_eq_of_lt w.isLt]

theorem uint_lt (b : BitString) : uint b < 2 ^ b.length := by
  induction b with
  | nil => simp [uint]
  | cons x xs ih =>
    simp only [uint, List.length_cons, Nat.pow_succ]
    cases x <;> simp <;> omega

theorem toWord_toBitString {n : Nat} (w : BitVec n) : toWord n (toBitString w) = w := by
  simp [toWord, uint_toBitString]

theorem toWord_toNat {n : Nat} (b : BitString) (h : b.length = n) : (toWord n b).toNat = uint b := by
  subst h
  simp [toWord, BitVec.toNat_ofNat, Nat.mod_eq_of_lt (uint_lt b)]

theorem uint_injective {a b : BitString} (hl : a.length = b.length) (h : uint a = uint b) : a = b := by
  induction a generalizing b with
  | nil => cases b <;> simp_all
  | cons x xs ih =>
    cases b with
    | nil => simp at hl
    | cons y ys =>
      simp only [List.length_cons, Nat.add_right_cancel_iff] at hl
      simp only [uint, hl] at h
      have h1 := uint_lt xs
      have h2 := uint_lt ys
      rw [hl] at h1
      have hxy : x = y := by
        cases x <;> cases y <;> simp at h ⊢ <;> omega
      subst hxy
      have : uint xs = uint ys := by omega
      rw [ih hl this]

theorem toBitString_toWord {n : Nat} (b : BitString) (h : b.length = n) : toBitString (toWord n b) = b :=
  uint_injective (by rw [toBitString_length, h]) (by rw [uint_toBitString, toWord_toNat b h])

theorem uint_append (a b : BitString) : uint (a ++ b) = uint a * 2 ^ b.length + uint b := by
  induction a with
  | nil => simp [uint]
  | cons x xs ih => simp only [List.cons_append, uint, ih, List.length_append, pow_add]; ring

theorem toBitString_append {m n : Nat} (u : BitVec m) (w : BitVec n) :
    toBitString (u ++ w) = toBitString u ++ toBitString w :=
  uint_injective (by simp [toBitString_length]) (by
    rw [uint_append, uint_toBitString, uint_toBitString, uint_toBitString, toBitString_length,
      BitVec.toNat_append, ← Nat.shiftLeft_add_eq_or_of_lt w.isLt, Nat.shiftLeft_eq])

end Sys2Proof.Machine
end

