-- ==== Sys2Proof/Laws/Wire.lean ====
section
/-! SUPPORT. The request wires: what packing a sequence and reading it back gives (R21, R25), and the codes (R24). -/

namespace Sys2Proof

theorem packBits_testBit (b : BitString) (i : Nat) : (packBits b).testBit i = b[i]?.getD false := by
  induction b generalizing i with
  | nil => simp [packBits]
  | cons x xs ih =>
    cases i with
    | zero => cases x <;> simp [packBits, Nat.testBit_zero]
    | succ i =>
      rw [Nat.testBit_succ]
      have : (packBits (x :: xs)) / 2 = packBits xs := by
        cases x <;> simp [packBits] <;> omega
      rw [this, ih]; simp

/-- What the decoder reads back from a packed BitString. -/
theorem packBits_wire (b : BitString) (h : b.length ≤ 255) :
    (List.range (BitVec.ofNat 8 b.length).toNat).map (fun i => (BitVec.ofNat 255 (packBits b)).getLsbD i) = b := by
  have hl : (BitVec.ofNat 8 b.length).toNat = b.length := by
    rw [BitVec.toNat_ofNat, Nat.mod_eq_of_lt (by omega)]
  apply List.ext_getElem?
  intro i
  rw [hl]
  by_cases hi : i < b.length
  · have : i < 255 := by omega
    simp [hi, BitVec.getLsbD_ofNat, packBits_testBit, this]
  · simp [hi]

theorem packChars_testBit (h : Str) (i j : Nat) (hj : j < 8) :
    (packChars h).testBit (8 * i + j) = (h[i]?.getD 0).getLsbD j := by
  induction h generalizing i with
  | nil => simp [packChars]
  | cons c cs ih =>
    have e : packChars (c :: cs) = 2 ^ 8 * packChars cs + c.toNat := by simp only [packChars]; omega
    rw [e, Nat.testBit_two_pow_mul_add _ c.isLt]
    cases i with
    | zero => simp [hj, BitVec.getLsbD]
    | succ i =>
      have e1 : 8 * (i + 1) + j - 8 = 8 * i + j := by omega
      rw [if_neg (by omega), e1, ih]; simp

/-- What the decoder reads back from a packed String. -/
theorem packChars_wire (h : Str) (hl : h.length ≤ 255) :
    (List.range (BitVec.ofNat 8 h.length).toNat).map
      (fun i => (BitVec.ofNat 2040 (packChars h)).extractLsb' (8 * i) 8) = h := by
  have hlen : (BitVec.ofNat 8 h.length).toNat = h.length := by
    rw [BitVec.toNat_ofNat, Nat.mod_eq_of_lt (by omega)]
  apply List.ext_getElem?
  intro i
  rw [hlen]
  by_cases hi : i < h.length
  · simp only [List.getElem?_map, List.getElem?_range hi, Option.map_some, List.getElem?_eq_getElem hi]
    congr 1
    apply BitVec.eq_of_getLsbD_eq
    intro j hj
    have hb : 8 * i + j < 2040 := by omega
    rw [BitVec.getLsbD_extractLsb', BitVec.getLsbD_ofNat, packChars_testBit h i j hj,
      List.getElem?_eq_getElem hi, Option.getD_some, decide_eq_true hj, decide_eq_true hb]
    rfl
  · simp [hi]

/-- The eight values of `op`. -/
theorem op_cases (op : BitVec 3) : op = 0 ∨ op = 1 ∨ op = 2 ∨ op = 3 ∨ op = 4 ∨ op = 5 ∨ op = 6 ∨ op = 7 := by
    revert op; decide

end Sys2Proof
end

