-- ==== Sys2Proof/Laws/Exec.lean ====
section
/-! SUPPORT. What `exec` and `step` can do, said once. -/

namespace Sys2Proof.Machine

/-- `exec` is `respond` at the machine's parameters, and the frame of every operation: one response added. -/
theorem exec_eq_respond (i : Instr) (s : State) :
    exec i s = match respond codecParams i with
      | some a => .next (s.reply a)
      | none => .refused .emptyBitString := by
  cases i with
  | encode32 v => rfl
  | encode64 v => rfl
  | decode32 b => simp only [exec, execDecode32, respond]; split <;> simp_all [State.raise, State.succeed]
  | decode64 b => simp only [exec, execDecode64, respond]; split <;> simp_all [State.raise, State.succeed]
  | bitsFromHex32 h => simp only [exec, execBitsFromHex32, bitsFromHex, respond]; cases hexParseBelow 32 h <;> rfl
  | bitsFromHex64 h => simp only [exec, execBitsFromHex64, bitsFromHex, respond]; cases hexParseBelow 64 h <;> rfl
  | hexFromBits b => simp only [exec, execHexFromBits, respond]; split <;> rfl

/-- An operation answers exactly the response `respond` gives it, in every state. -/
theorem answersWith_iff (i : Instr) (s : State) (a : Response) :
    AnswersWith i s a ↔ respond codecParams i = some a := by
  unfold AnswersWith
  rw [exec_eq_respond]
  cases h : respond codecParams i with
  | none => simp
  | some b => simp [State.reply]

/-- The one operation without a response (R54). -/
theorem respond_eq_none_iff (P : Params) (i : Instr) : respond P i = none ↔ i = .hexFromBits [] := by
  cases i <;> simp [respond]

/-- One step on a request that decodes to an operation with a response. -/
theorem step_of_respond (r : WireRequest) (rest : List WireRequest) (rs : List Response) {i a}
    (hi : decode r = .ok i) (ha : respond codecParams i = some a) :
    step ⟨r :: rest, rs⟩ = .next ⟨rest, rs ++ [a]⟩ := by
  simp [step, serve, hi, exec_eq_respond, ha, State.withRequests, State.reply]

/-- A run peels off its first step. -/
theorem run_succ_next (M : Host.Core) (k : Nat) (s t : M.State) (h : M.step s = .next t) :
    M.run (k + 1) s = M.run k t := by
  simp only [Host.Core.run, h]

/-- A request that obtains a response decodes to an operation that has one (R75). -/
theorem decode_answerable {r : WireRequest} (h : Answerable r) :
    ∃ i a, decode r = .ok i ∧ respond codecParams i = some a := by
  rcases op_cases r.op with e | e | e | e | e | e | e | e
  · exact ⟨.encode32 r.fval, _, by simp [decode, e], rfl⟩
  · exact ⟨.encode64 r.fval, _, by simp [decode, e], rfl⟩
  · exact ⟨.decode32 r.bitString, _, by simp [decode, e], rfl⟩
  · exact ⟨.decode64 r.bitString, _, by simp [decode, e], rfl⟩
  · exact ⟨.bitsFromHex32 r.string, _, by simp [decode, e], rfl⟩
  · exact ⟨.bitsFromHex64 r.string, _, by simp [decode, e], rfl⟩
  · have hb : r.bitString ≠ [] := by
      intro hn
      have := congrArg List.length hn
      simp only [WireRequest.bitString, List.length_map, List.length_range, List.length_nil] at this
      exact h.2 e (BitVec.eq_of_toNat_eq this)
    exact ⟨.hexFromBits r.bitString, _, by simp [decode, e], if_neg hb⟩
  · exact absurd e h.1

end Sys2Proof.Machine
end

