-- ==== Sys2Proof/Laws/Answers.lean ====
section
/-! SUPPORT. What single operations answer. -/

namespace Sys2Proof.Machine

theorem answersWith_decode32 (b : BitString) (s : State) (h : b.length = 32) :
    AnswersWith (.decode32 b) s (.ok (.decoded (decoded32 codecParams (toWord 32 b)))) :=
  (answersWith_iff _ _ _).2 (by simp [respond, h])

theorem answersWith_encode32 (v : Word64) (s : State) :
    AnswersWith (.encode32 v) s (.ok (.bits (toBitString (narrow32 codecParams v)))) := (answersWith_iff _ _ _).2 rfl

theorem answersWith_bitsFromHex32_fail (h : Str) (s : State) : AnswersWith (.bitsFromHex32 h) s (.fail .invalidHex) ↔ hexParseBelow 32 h = none := by
  rw [answersWith_iff]; simp only [respond]; cases hexParseBelow 32 h <;> simp

theorem answersWith_bitsFromHex64_fail (h : Str) (s : State) : AnswersWith (.bitsFromHex64 h) s (.fail .invalidHex) ↔ hexParseBelow 64 h = none := by
  rw [answersWith_iff]; simp only [respond]; cases hexParseBelow 64 h <;> simp

theorem respond_bits_length (i : Instr) (b : BitString) (h : respond codecParams i = some (.ok (.bits b))) :
   (opCode i = 0b000#3 ∨ opCode i = 0b100#3 → b.length = 32) ∧ (opCode i = 0b001#3 ∨ opCode i = 0b101#3 → b.length = 64) ∧ (b.length = 32 ∨ b.length = 64) := by
  cases i with
  | encode32 v => simp only [respond, Option.some.injEq, Response.ok.injEq, Result.bits.injEq] at h; subst h; simp [opCode, toBitString_length]
  | encode64 v => simp only [respond, Option.some.injEq, Response.ok.injEq, Result.bits.injEq] at h; subst h; simp [opCode, toBitString_length]
  | decode32 v => simp only [respond] at h; split at h <;> simp at h
  | decode64 v => simp only [respond] at h; split at h <;> simp at h
  | hexFromBits v => simp only [respond] at h; split at h <;> simp at h
  | bitsFromHex32 v => simp only [respond] at h; split at h <;> simp at h; subst h; simp [opCode, toBitString_length]
  | bitsFromHex64 v => simp only [respond] at h; split at h <;> simp at h; subst h; simp [opCode, toBitString_length]

/-- A decode's text is the machine's text of its native float. -/
theorem respond_decoded (i : Instr) (d : Decoded) (h : respond codecParams i = some (.ok (.decoded d))) :
    d.text = codecParams.textRender d.rval ∧ ((∃ w, d = decoded32 codecParams w) ∨ ∃ w, d = decoded64 codecParams w) := by
  cases i with
  | decode32 b => simp only [respond] at h; split at h <;> simp at h; subst h; exact ⟨rfl, Or.inl ⟨_, rfl⟩⟩
  | decode64 b => simp only [respond] at h; split at h <;> simp at h; subst h; exact ⟨rfl, Or.inr ⟨_, rfl⟩⟩
  | encode32 v => simp [respond] at h
  | encode64 v => simp [respond] at h
  | hexFromBits v => simp only [respond] at h; split at h <;> simp at h
  | bitsFromHex32 v => simp only [respond] at h; split at h <;> simp at h
  | bitsFromHex64 v => simp only [respond] at h; split at h <;> simp at h

end Sys2Proof.Machine
end

