-- ==== Sys2Proof/Laws/Digits.lean ====
section
/-! SUPPORT. Positional numerals and the hexadecimal transforms (R55, R58, R59, R61). -/

namespace Sys2Proof.Machine

theorem natOfDigits_append (b : Nat) (xs ys : List Nat) :
    natOfDigits b (xs ++ ys) = natOfDigits b xs * b ^ ys.length + natOfDigits b ys := by
  induction xs with
  | nil => simp [natOfDigits]
  | cons x xs ih => simp only [List.cons_append, natOfDigits, ih, List.length_append, pow_add]; ring

theorem foldl_eq_natOfDigits (b : Nat) (xs : List Nat) (a : Nat) :
    xs.foldl (fun a v => b * a + v) a = a * b ^ xs.length + natOfDigits b xs := by
  induction xs generalizing a with
  | nil => simp [natOfDigits]
  | cons x xs ih => simp only [List.foldl_cons, ih, natOfDigits, List.length_cons, pow_succ]; ring

theorem foldl_zero_eq (b : Nat) (xs : List Nat) : xs.foldl (fun a v => b * a + v) 0 = natOfDigits b xs := by
  rw [foldl_eq_natOfDigits]; simp

theorem natOfDigits_lt (b : Nat) (xs : List Nat) (h : ∀ x ∈ xs, x < b) : natOfDigits b xs < b ^ xs.length := by
  induction xs with
  | nil => simp [natOfDigits]
  | cons x xs ih =>
    have hx := h x (by simp)
    have := ih (fun y hy => h y (by simp [hy]))
    simp only [natOfDigits, List.length_cons, pow_succ]
    calc x * b ^ xs.length + natOfDigits b xs < x * b ^ xs.length + b ^ xs.length := by omega
      _ = (x + 1) * b ^ xs.length := by ring
      _ ≤ b ^ xs.length * b := by rw [Nat.mul_comm]; exact Nat.mul_le_mul_left _ hx

theorem natOfDigits_ge (b : Nat) (x : Nat) (xs : List Nat) (h : x ≠ 0) : b ^ xs.length ≤ natOfDigits b (x :: xs) := by
  simp only [natOfDigits]
  have : 1 ≤ x := by omega
  calc b ^ xs.length = 1 * b ^ xs.length := by ring
    _ ≤ x * b ^ xs.length := Nat.mul_le_mul_right _ this
    _ ≤ _ := Nat.le_add_right _ _

theorem digitsAux_spec (b : Nat) (hb : 2 ≤ b) (fuel n : Nat) (h : n < 2 ^ (fuel + 1)) :
    natOfDigits b (digitsAux b fuel n) = n ∧ (∀ d ∈ digitsAux b fuel n, d < b) ∧ digitsAux b fuel n ≠ [] ∧
      (digitsAux b fuel n = [0] ∨ (digitsAux b fuel n).head? ≠ some 0) := by
  induction fuel generalizing n with
  | zero =>
    have hn : n < b := by omega
    rw [digitsAux, Nat.mod_eq_of_lt hn]
    refine ⟨by simp [natOfDigits], by simpa using hn, by simp, ?_⟩
    by_cases h0 : n = 0 <;> simp [h0]
  | succ fuel ih =>
    rw [digitsAux]
    split
    · next hn =>
      refine ⟨by simp [natOfDigits], by simpa using hn, by simp, ?_⟩
      by_cases h0 : n = 0 <;> simp [h0]
    · next hn =>
      have hq : n / b < 2 ^ (fuel + 1) := by
        apply Nat.div_lt_of_lt_mul
        calc n < 2 ^ (fuel + 1 + 1) := h
          _ = 2 * 2 ^ (fuel + 1) := by ring
          _ ≤ b * 2 ^ (fuel + 1) := Nat.mul_le_mul_right _ hb
      obtain ⟨h1, h2, h3, h4⟩ := ih (n / b) hq
      refine ⟨?_, ?_, by simp, ?_⟩
      · rw [natOfDigits_append, h1]; simp [natOfDigits]; exact Nat.div_add_mod' n b
      · intro d hd
        rcases List.mem_append.1 hd with hd | hd
        · exact h2 d hd
        · rw [List.mem_singleton.1 hd]; exact Nat.mod_lt _ (by omega)
      · right
        rw [List.head?_append_of_ne_nil _ h3]
        rcases h4 with h4 | h4
        · rw [h4] at h1
          simp [natOfDigits] at h1
          have : n / b ≠ 0 := (Nat.div_pos (by omega) (by omega)).ne'
          omega
        · exact h4

/-- The digits of a natural: they denote it, each is below the base, and no zero leads but for 0 itself. -/
theorem digitsOf_spec (b : Nat) (hb : 2 ≤ b) (n : Nat) :
    natOfDigits b (digitsOf b n) = n ∧ (∀ d ∈ digitsOf b n, d < b) ∧ digitsOf b n ≠ [] ∧
      (digitsOf b n = [0] ∨ (digitsOf b n).head? ≠ some 0) := digitsAux_spec b hb _ n Nat.lt_log2_self

theorem hexDigit?_iff (c : Char8) (v : Nat) : hexDigit? c = some v ↔ HexGlyph c v := by
  unfold hexDigit? HexGlyph
  split_ifs <;> simp only [Option.some.injEq, false_iff] <;> omega

theorem hexValues_iff (t : Str) (vs : List Nat) : hexValues t = some vs ↔ List.Forall₂ HexGlyph t vs := by
  induction t generalizing vs with
  | nil => cases vs <;> simp [hexValues]
  | cons c cs ih =>
    rw [hexValues]
    cases vs with
    | nil => split <;> simp
    | cons v vs =>
      rw [List.forall₂_cons, ← hexDigit?_iff, ← ih]
      split <;> simp_all

theorem not_hexGlyph_x (c : Char8) (h : c = 0x78#8 ∨ c = 0x58#8) (v : Nat) : ¬ HexGlyph c v := by
  rcases h with rfl | rfl <;> simp [HexGlyph] <;> omega

/-- `hexParse` reads exactly the numerals of R58, with their value. -/
theorem hexParse_iff (h : Str) (n : Nat) : hexParse h = some n ↔ DenotesHex h n := by
  unfold hexParse DenotesHex
  constructor
  · intro hp
    simp only at hp
    split_ifs at hp with ht
    rw [Option.map_eq_some_iff] at hp
    obtain ⟨vs, hv, rfl⟩ := hp
    rw [hexValues_iff] at hv
    have hpre : ∃ pre, h = pre ++ stripPrefix h ∧ (pre = [] ∨ pre = [0x30#8, 0x78#8] ∨ pre = [0x30#8, 0x58#8]) := by
      unfold stripPrefix
      split
      · split
        · next hc => obtain ⟨rfl, hc | hc⟩ := hc <;> subst hc
                     · exact ⟨[0x30#8, 0x78#8], rfl, by simp⟩
                     · exact ⟨[0x30#8, 0x58#8], rfl, by simp⟩
        · exact ⟨[], rfl, by simp⟩
      · exact ⟨[], rfl, by simp⟩
      · exact ⟨[], rfl, by simp⟩
    obtain ⟨pre, he, hpre⟩ := hpre
    exact ⟨pre, stripPrefix h, vs, he, hpre, ht, hv, (foldl_zero_eq 16 vs).symm⟩
  · rintro ⟨pre, t, vs, rfl, hpre, ht, hv, rfl⟩
    have hs : stripPrefix (pre ++ t) = t := by
      rcases hpre with rfl | rfl | rfl
      · rw [List.nil_append]
        unfold stripPrefix
        split
        · next c0 c1 rest =>
          split
          · next hc =>
            exfalso
            rcases vs with _ | ⟨v0, _ | ⟨v1, vs⟩⟩
            · simp at hv
            · simp at hv
            · simp only [List.forall₂_cons] at hv
              exact not_hexGlyph_x c1 hc.2 v1 hv.2.1
          · rfl
        · rfl
        · rfl
      · simp [stripPrefix]
      · simp [stripPrefix]
    simp only [hs, if_neg ht, (hexValues_iff t vs).2 hv, Option.map_some, foldl_zero_eq]

/-- The range check of R59. -/
theorem hexParseBelow_iff (w : Nat) (h : Str) (n : Nat) : hexParseBelow w h = some n ↔ DenotesHex h n ∧ n < 2 ^ w := by
  rw [← hexParse_iff]
  unfold hexParseBelow
  cases hexParse h with
  | none => simp
  | some k =>
    simp only [Option.some.injEq]
    split_ifs with hk
    · constructor
      · simp
      · rintro ⟨rfl, h2⟩; omega
    · simp only [Option.some.injEq]
      constructor
      · rintro rfl; exact ⟨rfl, by omega⟩
      · exact fun h => h.1

theorem hexParseBelow_none_iff (w : Nat) (h : Str) : hexParseBelow w h = none ↔ ¬ ∃ n, DenotesHex h n ∧ n < 2 ^ w := by
  simp only [← hexParseBelow_iff]
  cases hexParseBelow w h <;> simp

theorem digitChar_lower (d : Nat) (h : d < 16) : LowerHexGlyph (digitChar d) d := by
  unfold LowerHexGlyph digitChar
  split_ifs <;> simp only [BitVec.toNat_ofNat] <;> omega

/-- `HEXDIGITS` writes the numeral of R55. -/
theorem hexDigits_numeral (n : Nat) : LowerHexNumeral (hexDigits n) n := by
  obtain ⟨h1, h2, h3, h4⟩ := digitsOf_spec 16 (by norm_num) n
  refine ⟨digitsOf 16 n, by simpa [hexDigits] using h3, ?_, ?_, h4⟩
  · rw [hexDigits, List.forall₂_map_left_iff, List.forall₂_same]
    exact fun d hd => digitChar_lower d (h2 d hd)
  · rw [foldl_zero_eq, h1]

theorem hexGlyph_of_lower (c : Char8) (v : Nat) (h : LowerHexGlyph c v) : HexGlyph c v := by
  unfold LowerHexGlyph at h; unfold HexGlyph; omega

theorem denotes_hexDigits (n : Nat) : DenotesHex (hexPrefix ++ hexDigits n) n := by
  obtain ⟨vs, h1, h2, h3, -⟩ := hexDigits_numeral n
  exact ⟨hexPrefix, _, vs, rfl, Or.inr (Or.inl rfl), h1, h2.imp hexGlyph_of_lower, h3⟩

theorem uint_dropWhile (b : BitString) : uint (b.dropWhile (fun x => x == false)) = uint b := by
  induction b with
  | nil => rfl
  | cons x xs ih =>
    cases x with
    | true => rfl
    | false => rw [List.dropWhile_cons_of_pos (by rfl), ih]; simp [uint]

theorem digitsOf_16_length (n : Nat) (L : Nat) (h0 : n = 0 → L = 0) (hlo : n ≠ 0 → 2 ^ (L - 1) ≤ n ∧ L ≠ 0) (hhi : n < 2 ^ L) :
    (digitsOf 16 n).length = max 1 ((L + 3) / 4) := by
  obtain ⟨h1, h2, h3, h4⟩ := digitsOf_spec 16 (by norm_num) n
  set ds := digitsOf 16 n
  have hlt := natOfDigits_lt 16 ds h2
  rw [h1] at hlt
  by_cases hn : n = 0
  · subst hn
    have : ds = [0] := rfl
    rw [this, h0 rfl]; rfl
  · obtain ⟨hlo, hL⟩ := hlo hn
    obtain ⟨x, xs, hx⟩ := List.exists_cons_of_ne_nil h3
    have hx0 : x ≠ 0 := by
      rcases h4 with h4 | h4
      · rw [h4] at h1; simp [natOfDigits] at h1; omega
      · rw [hx] at h4; simpa using h4
    have hge := natOfDigits_ge 16 x xs hx0
    rw [← hx, h1] at hge
    have hlen : ds.length = xs.length + 1 := by rw [hx]; rfl
    have e1 : (16:ℕ) ^ xs.length = 2 ^ (4 * xs.length) := by rw [pow_mul]; norm_num
    have e2 : (16:ℕ) ^ ds.length = 2 ^ (4 * ds.length) := by rw [pow_mul]; norm_num
    rw [e1] at hge; rw [e2] at hlt
    have a1 := (Nat.pow_lt_pow_iff_right (by norm_num : 1 < 2)).1 (lt_of_le_of_lt hge hhi)
    have a2 := (Nat.pow_lt_pow_iff_right (by norm_num : 1 < 2)).1 (lt_of_le_of_lt hlo hlt)
    omega

theorem hexGlyph_zero (c : Char8) (v : Nat) (h : HexGlyph c v) : (c == 0x30#8) = (v == 0) := by
  unfold HexGlyph at h
  have : c = 0x30#8 ↔ c.toNat = 0x30 := by rw [← BitVec.toNat_inj]; rfl
  rw [Bool.eq_iff_iff]; simp only [beq_iff_eq, this]; omega

/-- A digit string fits `4 k` bits when at most `k` digits remain after its leading zero digits (R61). -/
theorem natOfDigits_lt_iff (k : Nat) (t : Str) (vs : List Nat) (hv : List.Forall₂ HexGlyph t vs) :
    natOfDigits 16 vs < 2 ^ (4 * k) ↔ (t.dropWhile (fun c => c == 0x30#8)).length ≤ k := by
  induction hv with
  | nil => simp [natOfDigits]
  | @cons c v t vs hcv hv ih =>
    have hz := hexGlyph_zero c v hcv
    have hvl : v < 16 := by unfold HexGlyph at hcv; omega
    by_cases h0 : v = 0
    · subst h0
      rw [List.dropWhile_cons_of_pos (by simpa using hz)]
      simpa [natOfDigits] using ih
    · rw [List.dropWhile_cons_of_neg (by simp [hz, h0])]
      have hge := natOfDigits_ge 16 v vs h0
      have hlt : natOfDigits 16 (v :: vs) < 16 ^ (vs.length + 1) := by
        apply natOfDigits_lt 16 (v :: vs)
        have : ∀ x ∈ vs, x < 16 := by
          clear ih hz hcv h0 hge
          induction hv with
          | nil => simp
          | cons h _ ih2 =>
            intro x hx
            rcases List.mem_cons.1 hx with rfl | hx
            · unfold HexGlyph at h; omega
            · exact ih2 x hx
        intro x hx
        rcases List.mem_cons.1 hx with rfl | hx
        · exact hvl
        · exact this x hx
      have hl : (c :: t).length = vs.length + 1 := by simp [hv.length_eq]
      rw [hl]
      have e1 : (16:ℕ) ^ vs.length = 2 ^ (4 * vs.length) := by rw [pow_mul]; norm_num
      have e2 : (16:ℕ) ^ (vs.length + 1) = 2 ^ (4 * (vs.length + 1)) := by rw [pow_mul]; norm_num
      rw [e1] at hge; rw [e2] at hlt
      constructor
      · intro h
        have := (Nat.pow_lt_pow_iff_right (by norm_num : 1 < 2)).1 (lt_of_le_of_lt hge h)
        omega
      · intro h
        exact lt_of_lt_of_le hlt (Nat.pow_le_pow_right (by norm_num) (by omega))

end Sys2Proof.Machine
end

