-- ==== Sys2Proof/Laws/Fields.lean ====
section
/-! SUPPORT. Fields, packing and classes (R31, R32, R34, R35), in numbers. -/

namespace Sys2Proof.Machine

theorem toNat_sign64 (v : Word64) : (sign64 v).toNat = v.toNat / 2 ^ 63 := by
  have := v.isLt
  simp [sign64, BitVec.extractLsb'_toNat, Nat.shiftRight_eq_div_pow]; omega

theorem toNat_exp64 (v : Word64) : (exp64 v).toNat = v.toNat / 2 ^ 52 % 2 ^ 11 := by
  simp [exp64, BitVec.extractLsb'_toNat, Nat.shiftRight_eq_div_pow]

theorem toNat_man64 (v : Word64) : (man64 v).toNat = v.toNat % 2 ^ 52 := by
  simp [man64, BitVec.extractLsb'_toNat]

theorem toNat_sign32 (v : Word32) : (sign32 v).toNat = v.toNat / 2 ^ 31 := by
  have := v.isLt
  simp [sign32, BitVec.extractLsb'_toNat, Nat.shiftRight_eq_div_pow]; omega

theorem toNat_exp32 (v : Word32) : (exp32 v).toNat = v.toNat / 2 ^ 23 % 2 ^ 8 := by
  simp [exp32, BitVec.extractLsb'_toNat, Nat.shiftRight_eq_div_pow]

theorem toNat_man32 (v : Word32) : (man32 v).toNat = v.toNat % 2 ^ 23 := by
  simp [man32, BitVec.extractLsb'_toNat]

theorem toNat_pack64 (s : BitVec 1) (e : BitVec 11) (m : BitVec 52) :
    (pack64 s e m).toNat = s.toNat * 2 ^ 63 + e.toNat * 2 ^ 52 + m.toNat := by
  have := m.isLt
  have := (e ++ m).isLt
  rw [pack64, BitVec.toNat_append, ← Nat.shiftLeft_add_eq_or_of_lt (e ++ m).isLt, BitVec.toNat_append,
    ← Nat.shiftLeft_add_eq_or_of_lt m.isLt, Nat.shiftLeft_eq, Nat.shiftLeft_eq]; omega

theorem toNat_pack32 (s : BitVec 1) (e : BitVec 8) (m : BitVec 23) :
    (pack32 s e m).toNat = s.toNat * 2 ^ 31 + e.toNat * 2 ^ 23 + m.toNat := by
  rw [pack32, BitVec.toNat_append, ← Nat.shiftLeft_add_eq_or_of_lt (e ++ m).isLt, BitVec.toNat_append,
    ← Nat.shiftLeft_add_eq_or_of_lt m.isLt, Nat.shiftLeft_eq, Nat.shiftLeft_eq]; omega

theorem sign64_pack64 (s : BitVec 1) (e : BitVec 11) (m : BitVec 52) : sign64 (pack64 s e m) = s := by
  apply BitVec.eq_of_toNat_eq
  have := s.isLt; have := e.isLt; have := m.isLt
  rw [toNat_sign64, toNat_pack64]; omega

theorem exp64_pack64 (s : BitVec 1) (e : BitVec 11) (m : BitVec 52) : exp64 (pack64 s e m) = e := by
  apply BitVec.eq_of_toNat_eq
  have := s.isLt; have := e.isLt; have := m.isLt
  rw [toNat_exp64, toNat_pack64]; omega

theorem man64_pack64 (s : BitVec 1) (e : BitVec 11) (m : BitVec 52) : man64 (pack64 s e m) = m := by
  apply BitVec.eq_of_toNat_eq
  have := s.isLt; have := e.isLt; have := m.isLt
  rw [toNat_man64, toNat_pack64]; omega

theorem sign32_pack32 (s : BitVec 1) (e : BitVec 8) (m : BitVec 23) : sign32 (pack32 s e m) = s := by
  apply BitVec.eq_of_toNat_eq
  have := s.isLt; have := e.isLt; have := m.isLt
  rw [toNat_sign32, toNat_pack32]; omega

theorem exp32_pack32 (s : BitVec 1) (e : BitVec 8) (m : BitVec 23) : exp32 (pack32 s e m) = e := by
  apply BitVec.eq_of_toNat_eq
  have := s.isLt; have := e.isLt; have := m.isLt
  rw [toNat_exp32, toNat_pack32]; omega

theorem man32_pack32 (s : BitVec 1) (e : BitVec 8) (m : BitVec 23) : man32 (pack32 s e m) = m := by
  apply BitVec.eq_of_toNat_eq
  have := s.isLt; have := e.isLt; have := m.isLt
  rw [toNat_man32, toNat_pack32]; omega

theorem pack64_fields (v : Word64) : pack64 (sign64 v) (exp64 v) (man64 v) = v := by
  apply BitVec.eq_of_toNat_eq
  rw [toNat_pack64, toNat_sign64, toNat_exp64, toNat_man64]; omega

theorem pack32_fields (v : Word32) : pack32 (sign32 v) (exp32 v) (man32 v) = v := by
  apply BitVec.eq_of_toNat_eq
  rw [toNat_pack32, toNat_sign32, toNat_exp32, toNat_man32]; omega

/-- The class by the numbers in the fields (R34). -/
theorem classify_cases {E M : Nat} (e : BitVec E) (m : BitVec M) :
    classify e m =
      if e.toNat = 2 ^ E - 1 then (if m.toNat = 0 then .infinity else .nan)
      else if e.toNat = 0 then (if m.toNat = 0 then .zero else .subnormal)
      else .normal := by
  have h1 : (e = BitVec.allOnes E) ↔ e.toNat = 2 ^ E - 1 := by
    rw [← BitVec.toNat_inj, BitVec.toNat_allOnes]
  have h2 : (e = 0) ↔ e.toNat = 0 := by rw [← BitVec.toNat_inj]; simp
  have h3 : (m = 0) ↔ m.toNat = 0 := by rw [← BitVec.toNat_inj]; simp
  simp only [classify, h1, h2, h3]

/-- The class of a binary64 pattern by its magnitude. -/
theorem class64_eq (v : Word64) :
    class64 v = if v.toNat % 2 ^ 63 = 0x7FF0000000000000 then .infinity
      else if 0x7FF0000000000000 < v.toNat % 2 ^ 63 then .nan
      else if v.toNat % 2 ^ 63 = 0 then .zero
      else if v.toNat % 2 ^ 63 < 2 ^ 52 then .subnormal else .normal := by
  rw [class64, classify_cases, toNat_exp64, toNat_man64]
  have := v.isLt
  split_ifs <;> first | rfl | omega

/-- The class of a binary32 pattern by its magnitude. -/
theorem class32_eq (v : Word32) :
    class32 v = if v.toNat % 2 ^ 31 = 0x7F800000 then .infinity
      else if 0x7F800000 < v.toNat % 2 ^ 31 then .nan
      else if v.toNat % 2 ^ 31 = 0 then .zero
      else if v.toNat % 2 ^ 31 < 2 ^ 23 then .subnormal else .normal := by
  rw [class32, classify_cases, toNat_exp32, toNat_man32]
  have := v.isLt
  split_ifs <;> first | rfl | omega

theorem bitsBelow_zero {n : Nat} (k : Nat) : bitsBelow (0 : BitVec n) k = List.replicate k false := by
  induction k with
  | zero => rfl
  | succ k ih => simp only [bitsBelow, ih, List.replicate_succ]; simp

theorem toBitString_zero {n : Nat} : toBitString (0 : BitVec n) = List.replicate n false := bitsBelow_zero n

theorem bitsBelow_allOnes {n : Nat} (k : Nat) (h : k ≤ n) : bitsBelow (BitVec.allOnes n) k = List.replicate k true := by
  induction k with
  | zero => rfl
  | succ k ih =>
    have : k < n := by omega
    rw [bitsBelow, ih (by omega), List.replicate_succ]; simp [this]

theorem toBitString_allOnes {n : Nat} : toBitString (BitVec.allOnes n) = List.replicate n true := bitsBelow_allOnes n le_rfl

theorem toBitString_one (s : BitVec 1) : toBitString s = [s.getLsbD 0] := rfl

theorem toBitString_sign64 (v : Word64) : toBitString (sign64 v) = [v.getLsbD 63] := by
  simp [toBitString_one, sign64]

theorem toBitString_sign32 (v : Word32) : toBitString (sign32 v) = [v.getLsbD 31] := by
  simp [toBitString_one, sign32]

theorem toBitString_pack32 (s : BitVec 1) (e : BitVec 8) (m : BitVec 23) :
    toBitString (pack32 s e m) = s.getLsbD 0 :: (toBitString e ++ toBitString m) := by
  rw [pack32, toBitString_append, toBitString_append, toBitString_one]; rfl

theorem sign64_getLsbD (v : Word64) : (sign64 v).getLsbD 0 = v.getLsbD 63 := by simp [sign64]

theorem sign32_getLsbD (v : Word32) : (sign32 v).getLsbD 0 = v.getLsbD 31 := by simp [sign32]

theorem uint_sign32 (w : Word32) : (sign32 w).toNat = uint ((toBitString w).take 1) := by
  conv_rhs => rw [← pack32_fields w, toBitString_pack32]
  rw [← uint_toBitString]; rfl

theorem uint_exp32 (w : Word32) : uint (((toBitString w).drop 1).take 8) = (exp32 w).toNat := by
  conv_lhs => rw [← pack32_fields w, toBitString_pack32]
  rw [List.drop_succ_cons, List.drop_zero, List.take_left' (toBitString_length _), uint_toBitString]

theorem uint_man32 (w : Word32) : uint ((toBitString w).drop 9) = (man32 w).toNat := by
  conv_lhs => rw [← pack32_fields w, toBitString_pack32]
  rw [List.drop_succ_cons, List.drop_left' (toBitString_length _), uint_toBitString]

theorem uint_sign64 (w : Word64) : (sign64 w).toNat = uint ((toBitString w).take 1) := by
  conv_rhs => rw [← pack64_fields w, pack64, toBitString_append]
  rw [← uint_toBitString]; rfl

theorem uint_exp64 (w : Word64) : uint (((toBitString w).drop 1).take 11) = (exp64 w).toNat := by
  conv_lhs => rw [← pack64_fields w, pack64, toBitString_append, toBitString_append]
  rw [List.drop_left' (toBitString_length _), List.take_left' (toBitString_length _), uint_toBitString]

theorem uint_man64 (w : Word64) : uint ((toBitString w).drop 12) = (man64 w).toNat := by
  conv_lhs => rw [← pack64_fields w, pack64, ← List.drop_drop (i := 11) (j := 1)]
  rw [toBitString_append, toBitString_append, List.drop_left' (toBitString_length _), List.drop_left' (toBitString_length _), uint_toBitString]

theorem classify_of_fields {E M : Nat} (e : BitVec E) (m : BitVec M) (hE : 0 < E) :
   (e.toNat = 2 ^ E - 1 → m = 0 → classify e m = .infinity) ∧
   (e.toNat = 2 ^ E - 1 → m ≠ 0 → classify e m = .nan) ∧
   (e.toNat = 0 → m = 0 → classify e m = .zero) ∧
   (e.toNat = 0 → m ≠ 0 → classify e m = .subnormal) ∧
   (e.toNat ≠ 2 ^ E - 1 → e.toNat ≠ 0 → classify e m = .normal) := by
  have : 2 ^ E ≠ 1 := by have := Nat.one_lt_two_pow (n := E) (by omega); omega
  have h2 : 0 < 2 ^ E := by positivity
  have h3 : (m = 0) ↔ m.toNat = 0 := by rw [← BitVec.toNat_inj]; simp
  simp only [h3, classify_cases, ne_eq]
  refine ⟨?_, ?_, ?_, ?_, ?_⟩ <;> intro a b <;> simp [a, b] <;> omega

end Sys2Proof.Machine
end

