-- ==== Sys2Proof/Laws/Round.lean ====
section
/-! SUPPORT. Magnitude patterns as values (R33), and the rounding of R36. -/

namespace Sys2Proof.Machine

/-- The rational a magnitude pattern denotes. -/
def magVal (F : Format) (k : Nat) : ℚ :=
  if k / 2 ^ F.manBits = 0 then (k % 2 ^ F.manBits : ℕ) * (2 : ℚ) ^ (1 - (F.bias : ℤ) - F.manBits)
  else ((2 ^ F.manBits + k % 2 ^ F.manBits : ℕ) : ℚ) * (2 : ℚ) ^ (((k / 2 ^ F.manBits : ℕ) : ℤ) - F.bias - F.manBits)

/-- Inside one exponent block the grid of magnitudes is linear; the block's end is the next block's start. -/
theorem magVal_block (F : Format) (t q : Nat) (hq : q ≤ 2 ^ (F.manBits + 1)) (ht : t = 0 ∨ 2 ^ F.manBits ≤ q) :
    magVal F (t * 2 ^ F.manBits + q) = q * (2 : ℚ) ^ ((t : ℤ) + 1 - F.bias - F.manBits) := by
  have hp : 0 < 2 ^ F.manBits := by positivity
  rw [pow_succ] at hq
  unfold magVal
  by_cases h1 : q < 2 ^ F.manBits
  · obtain rfl : t = 0 := by omega
    simp [Nat.div_eq_of_lt h1, Nat.mod_eq_of_lt h1]
  · obtain ⟨r, rfl⟩ := Nat.exists_eq_add_of_le (not_lt.1 h1)
    have e1 : t * 2 ^ F.manBits + (2 ^ F.manBits + r) = r + (t + 1) * 2 ^ F.manBits := by ring
    rw [e1, Nat.add_mul_div_right _ _ hp, Nat.add_mul_mod_self_right]
    by_cases h2 : r = 2 ^ F.manBits
    · rw [h2, Nat.div_self hp, Nat.mod_self, if_neg (by omega)]
      have : ((1 + (t + 1) : ℕ) : ℤ) - F.bias - F.manBits = ((t : ℤ) + 1 - F.bias - F.manBits) + 1 := by push_cast; ring
      rw [this, zpow_add_one₀ (by norm_num)]; push_cast; ring
    · have h3 : r < 2 ^ F.manBits := by omega
      rw [Nat.div_eq_of_lt h3, Nat.mod_eq_of_lt h3, if_neg (by omega)]
      push_cast; congr 2; ring

/-- Every magnitude lies in one exponent block. -/
theorem mag_block (F : Format) (k : Nat) : ∃ t q, k = t * 2 ^ F.manBits + q ∧ q < 2 ^ (F.manBits + 1) ∧ (t = 0 ∨ 2 ^ F.manBits ≤ q) := by
  have hp : 0 < 2 ^ F.manBits := by positivity
  have hm := Nat.mod_lt k hp
  have hd := Nat.div_add_mod k (2 ^ F.manBits)
  rw [pow_succ]
  rcases Nat.eq_zero_or_pos (k / 2 ^ F.manBits) with h | h
  · refine ⟨0, k, by omega, ?_, Or.inl rfl⟩
    rw [h] at hd; omega
  · obtain ⟨j, hj⟩ := Nat.exists_eq_add_of_lt h
    refine ⟨j, 2 ^ F.manBits + k % 2 ^ F.manBits, ?_, by omega, Or.inr (by omega)⟩
    rw [hj] at hd
    nlinarith

theorem magVal_lt_succ (F : Format) (k : Nat) : magVal F k < magVal F (k + 1) := by
  obtain ⟨t, q, rfl, hq, ht⟩ := mag_block F k
  rw [add_assoc, magVal_block F t q hq.le ht, magVal_block F t (q + 1) hq (by omega)]
  have : (0 : ℚ) < (2 : ℚ) ^ ((t : ℤ) + 1 - F.bias - F.manBits) := by positivity
  push_cast; nlinarith

/-- A greater magnitude pattern denotes a greater value. -/
theorem magVal_strictMono (F : Format) : StrictMono (magVal F) := strictMono_nat_of_lt_succ (magVal_lt_succ F)

theorem magVal_zero (F : Format) : magVal F 0 = 0 := by simp [magVal]

theorem magVal_nonneg (F : Format) (k : Nat) : 0 ≤ magVal F k := by
  rw [← magVal_zero F]; exact (magVal_strictMono F).monotone (Nat.zero_le k)

/-- The neighbour taken out of a bracket is nearest to `x` among all values, ties to the even one. -/
theorem nearest_of_bracket (V : Nat → ℚ) (hV : StrictMono V) (x : ℚ) (k r : Nat) (h0 : V k ≤ x) (h1 : x < V (k + 1))
    (hr : r = k ∧ (x - V k < V (k + 1) - x ∨ (x - V k = V (k + 1) - x ∧ k % 2 = 0)) ∨
      r = k + 1 ∧ (V (k + 1) - x < x - V k ∨ (x - V k = V (k + 1) - x ∧ k % 2 = 1))) (j : Nat) :
    |V r - x| ≤ |V j - x| ∧ (|V r - x| = |V j - x| → j ≠ r → r % 2 = 0) := by
  have ek : |V k - x| = x - V k := by rw [abs_of_nonpos (by linarith)]; ring
  have ek1 : |V (k + 1) - x| = V (k + 1) - x := abs_of_nonneg (by linarith)
  have hj : j < k ∧ x - V k < |V j - x| ∨ j = k ∨ j = k + 1 ∨ k + 1 < j ∧ V (k + 1) - x < |V j - x| := by
    rcases lt_trichotomy j k with h | h | h
    · left; have := hV h; refine ⟨h, ?_⟩; rw [abs_of_nonpos (by linarith)]; linarith
    · right; left; exact h
    · rcases Nat.lt_or_ge (k + 1) j with h' | h'
      · right; right; right; have := hV h'; refine ⟨h', ?_⟩; rw [abs_of_nonneg (by linarith)]; linarith
      · right; right; left; omega
  rcases hr with ⟨rfl, hr⟩ | ⟨rfl, hr⟩
  · rw [ek]
    rcases hj with ⟨h, hj⟩ | rfl | rfl | ⟨h, hj⟩
    · exact ⟨hj.le, fun h => absurd h hj.ne⟩
    · exact ⟨ek.ge, fun _ h => absurd rfl h⟩
    · rw [ek1]; rcases hr with hr | hr
      · exact ⟨hr.le, fun h => absurd h hr.ne⟩
      · exact ⟨hr.1.le, fun _ _ => hr.2⟩
    · rcases hr with hr | hr
      · exact ⟨by linarith, fun h => by linarith⟩
      · exact ⟨by linarith, fun _ _ => hr.2⟩
  · rw [ek1]
    rcases hj with ⟨h, hj⟩ | rfl | rfl | ⟨h, hj⟩
    · rcases hr with hr | hr
      · exact ⟨by linarith, fun h => by linarith⟩
      · exact ⟨by linarith, fun _ _ => by omega⟩
    · rw [ek]; rcases hr with hr | hr
      · exact ⟨hr.le, fun h => absurd h hr.ne⟩
      · exact ⟨hr.1.ge, fun _ _ => by omega⟩
    · exact ⟨ek1.ge, fun _ h => absurd rfl h⟩
    · exact ⟨hj.le, fun h => absurd h hj.ne⟩

theorem toRat_val (F : Format) (s : BitVec 1) (e m : Nat) (he : e ≠ 2 ^ F.expBits - 1) (hm : m < 2 ^ F.manBits) :
    (val F s e m).toRat = some ((if s = 1 then -1 else 1) * magVal F (e * 2 ^ F.manBits + m)) := by
  have hp : 0 < 2 ^ F.manBits := by positivity
  rw [add_comm, val, if_neg he, magVal, Nat.add_mul_div_right _ _ hp, Nat.add_mul_mod_self_right, Nat.div_eq_of_lt hm, Nat.mod_eq_of_lt hm, zero_add]
  by_cases h : e = 0
  · simp [h, Value.toRat]
  · simp only [h, if_false, Value.toRat, decide_eq_true_eq]; push_cast; congr 1; split_ifs <;> ring

theorem toRat_val64 (v : Word64) (h : v.toNat % 2 ^ 63 < 0x7FF0000000000000) :
    (val64 v).toRat = some ((if sign64 v = 1 then -1 else 1) * magVal binary64 (v.toNat % 2 ^ 63)) := by
  rw [val64, toRat_val]
  · congr 3
    rw [toNat_exp64, toNat_man64]; simp only [binary64]; omega
  · rw [toNat_exp64]; simp only [binary64]; omega
  · rw [toNat_man64]; simp only [binary64]; omega

theorem toRat_val32 (v : Word32) (h : v.toNat % 2 ^ 31 < 0x7F800000) :
    (val32 v).toRat = some ((if sign32 v = 1 then -1 else 1) * magVal binary32 (v.toNat % 2 ^ 31)) := by
  rw [val32, toRat_val]
  · congr 3
    rw [toNat_exp32, toNat_man32]; simp only [binary32]; omega
  · rw [toNat_exp32]; simp only [binary32]; omega
  · rw [toNat_man32]; simp only [binary32]; omega

theorem toRat_val64_none (v : Word64) (h : 0x7FF0000000000000 ≤ v.toNat % 2 ^ 63) : (val64 v).toRat = none := by
  have : (exp64 v).toNat = 2 ^ binary64.expBits - 1 := by rw [toNat_exp64]; simp only [binary64]; omega
  rw [val64, val, if_pos this]; split <;> rfl

theorem toRat_val32_none (v : Word32) (h : 0x7F800000 ≤ v.toNat % 2 ^ 31) : (val32 v).toRat = none := by
  have : (exp32 v).toNat = 2 ^ binary32.expBits - 1 := by rw [toNat_exp32]; simp only [binary32]; omega
  rw [val32, val, if_pos this]; split <;> rfl

/-- R36's procedure takes the nearer of the two neighbouring magnitudes, ties to even. -/
theorem narrowFinite_spec (s : BitVec 1) (e m : Nat) (he : e ≠ 0) (he2 : e < 2047) (hm : m < 2 ^ 52) :
    ∃ k r, narrowFinite s e m = s ++ BitVec.ofNat 31 (if r ≥ 0x7F800000 then 0x7F800000 else r) ∧
      magVal binary32 k ≤ magVal binary64 (e * 2 ^ 52 + m) ∧
      magVal binary64 (e * 2 ^ 52 + m) < magVal binary32 (k + 1) ∧
      (r = k ∧ (magVal binary64 (e * 2 ^ 52 + m) - magVal binary32 k < magVal binary32 (k + 1) - magVal binary64 (e * 2 ^ 52 + m) ∨
         (magVal binary64 (e * 2 ^ 52 + m) - magVal binary32 k = magVal binary32 (k + 1) - magVal binary64 (e * 2 ^ 52 + m) ∧ k % 2 = 0)) ∨
       r = k + 1 ∧ (magVal binary32 (k + 1) - magVal binary64 (e * 2 ^ 52 + m) < magVal binary64 (e * 2 ^ 52 + m) - magVal binary32 k ∨
         (magVal binary64 (e * 2 ^ 52 + m) - magVal binary32 k = magVal binary32 (k + 1) - magVal binary64 (e * 2 ^ 52 + m) ∧ k % 2 = 1))) ∧
      magVal binary32 k ≤ magVal binary64 (e * 2 ^ 52 + m) := by
  set x := magVal binary64 (e * 2 ^ 52 + m) with hx
  have hxv : x = ((2 ^ 52 + m : ℕ) : ℚ) * (2 : ℚ) ^ ((e : ℤ) - 1075) := by
    have := magVal_block binary64 (e - 1) (2 ^ 52 + m) (by simp only [binary64]; omega) (Or.inr (by simp only [binary64]; omega))
    have e1 : (e - 1) * 2 ^ binary64.manBits + (2 ^ 52 + m) = e * 2 ^ 52 + m := by simp only [binary64]; omega
    rw [e1] at this
    rw [hx, this]
    congr 2
    have : binary64.bias = 1023 := by decide
    rw [this]; simp only [binary64]; omega
  obtain ⟨t, sh, hsh, ht, hb, hu⟩ : ∃ t sh : Nat, 1 ≤ sh ∧ (t = 0 ∧ 29 < sh ∨ sh = 29) ∧
      (narrowFinite s e m = s ++ BitVec.ofNat 31 (if t * 2 ^ 23 + (2 ^ 52 + m) / 2 ^ sh + roundUp ((2 ^ 52 + m) / 2 ^ sh) ((2 ^ 52 + m) % 2 ^ sh) (2 ^ (sh - 1)) ≥ 0x7F800000
        then 0x7F800000 else t * 2 ^ 23 + (2 ^ 52 + m) / 2 ^ sh + roundUp ((2 ^ 52 + m) / 2 ^ sh) ((2 ^ 52 + m) % 2 ^ sh) (2 ^ (sh - 1)))) ∧
      (t : ℤ) + 1 - 127 - 23 = sh + ((e : ℤ) - 1075) := by
    by_cases hX : (e : ℤ) - 1023 ≥ -126
    · refine ⟨e - 897, 29, by omega, by omega, ?_, by omega⟩
      rw [narrowFinite, if_neg he]
      simp only [if_pos hX, Nat.shiftRight_eq_div_pow]
      have : ((e : ℤ) - 1023 + 126).toNat = e - 897 := by omega
      rw [this]
    · refine ⟨0, 926 - e, by omega, by omega, ?_, by omega⟩
      rw [narrowFinite, if_neg he]
      simp only [if_neg hX, Nat.shiftRight_eq_div_pow]
      have : (-((e : ℤ) - 1023) - 97).toNat = 926 - e := by omega
      rw [this]; simp
  set sig := 2 ^ 52 + m with hsig
  have hp : 0 < 2 ^ sh := by positivity
  set q := sig / 2 ^ sh with hq
  set rem := sig % 2 ^ sh with hrem
  have hdm : 2 ^ sh * q + rem = sig := Nat.div_add_mod _ _
  have hrl : rem < 2 ^ sh := Nat.mod_lt _ hp
  have hqM : q < 2 ^ 24 ∧ (t = 0 ∨ 2 ^ 23 ≤ q) := by
    have h29 : (2 : ℕ) ^ 29 ≤ 2 ^ sh := Nat.pow_le_pow_right (by norm_num) (by omega)
    refine ⟨?_, ?_⟩
    · rw [hq, Nat.div_lt_iff_lt_mul hp]; nlinarith
    · rcases ht with ht | rfl
      · left; exact ht.1
      · right; rw [hq]; omega
  have hbias : binary32.bias = 127 := by decide
  have hman : binary32.manBits = 23 := rfl
  set U : ℚ := (2 : ℚ) ^ ((t : ℤ) + 1 - 127 - 23) with hU
  have hUpos : 0 < U := by positivity
  have v0 : magVal binary32 (t * 2 ^ 23 + q) = q * U := by
    have := magVal_block binary32 t q (by rw [hman]; omega) (by rw [hman]; omega)
    rw [hbias, hman] at this; exact_mod_cast this
  have v1 : magVal binary32 (t * 2 ^ 23 + q + 1) = (q + 1) * U := by
    have := magVal_block binary32 t (q + 1) (by rw [hman]; omega) (by rw [hman]; omega)
    rw [hbias, hman] at this; rw [add_assoc]; exact_mod_cast this
  have hhalf : 2 * 2 ^ (sh - 1) = 2 ^ sh := by rw [← pow_succ']; congr 1; omega
  have hE : U = (2 : ℚ) ^ sh * (2 : ℚ) ^ ((e : ℤ) - 1075) := by
    rw [hU, hu, zpow_add₀ (by norm_num), zpow_natCast]
  set W : ℚ := (2 : ℚ) ^ ((e : ℤ) - 1075) with hW
  have hWpos : 0 < W := by positivity
  have hx2 : x = q * U + rem * W := by
    rw [hxv, hE, ← hdm]; push_cast; ring
  have hUW : U = (2 ^ sh : ℕ) * W := by rw [hE]; push_cast; ring
  have hrq : (rem : ℚ) < (2 ^ sh : ℕ) := by exact_mod_cast hrl
  have hr0 : (0 : ℚ) ≤ rem := by positivity
  have hpar : (t * 2 ^ 23 + q) % 2 = q % 2 := by omega
  refine ⟨t * 2 ^ 23 + q, t * 2 ^ 23 + q + roundUp q rem (2 ^ (sh - 1)), hb, ?_, ?_, ?_, ?_⟩
  · rw [v0, hx2]; nlinarith
  · rw [v1, hx2]; nlinarith
  · rw [v0, v1, hpar, hx2]
    have hd : (q + 1) * U - (q * U + rem * W) = ((2 ^ sh : ℕ) - rem) * W := by rw [hUW]; ring
    have hd0 : (q : ℚ) * U + rem * W - q * U = rem * W := by ring
    rw [hd, hd0]
    have c2 : ((2 ^ sh : ℕ) : ℚ) = 2 * (2 ^ (sh - 1) : ℕ) := by rw [← hhalf]; push_cast; ring
    unfold roundUp
    rcases lt_trichotomy rem (2 ^ (sh - 1)) with h | h | h
    · left
      rw [if_neg (by omega)]
      have : (rem : ℚ) < (2 ^ (sh - 1) : ℕ) := by exact_mod_cast h
      exact ⟨by omega, Or.inl (mul_lt_mul_of_pos_right (by rw [c2]; linarith) hWpos)⟩
    · have hc : (rem : ℚ) = (2 ^ (sh - 1) : ℕ) := by exact_mod_cast h
      have ee : (rem : ℚ) * W = ((2 ^ sh : ℕ) - rem) * W := by rw [c2, hc]; ring
      by_cases hodd : q % 2 = 1
      · right; rw [if_pos (by omega)]; exact ⟨rfl, Or.inr ⟨ee, hodd⟩⟩
      · left; rw [if_neg (by omega)]; exact ⟨by omega, Or.inr ⟨ee, by omega⟩⟩
    · right
      rw [if_pos (by omega)]
      have : ((2 ^ (sh - 1) : ℕ) : ℚ) < rem := by exact_mod_cast h
      exact ⟨rfl, Or.inl (mul_lt_mul_of_pos_right (by rw [c2]; linarith) hWpos)⟩
  · rw [v0, hx2]; nlinarith

end Sys2Proof.Machine
end

