-- ==== Sys2Proof/Laws/Narrow.lean ====
section
/-! SUPPORT. Narrowing to binary32 (R36, R38). -/

namespace Sys2Proof.Machine

theorem magVal32_top : magVal binary32 0x7F7FFFFF = (2 ^ 24 - 1) * 2 ^ 104 := by
  have := magVal_block binary32 253 (2 ^ 24 - 1) (by decide) (by decide)
  have hb : binary32.bias = 127 := by decide
  have e : 253 * 2 ^ binary32.manBits + (2 ^ 24 - 1) = 0x7F7FFFFF := by decide
  rw [e, hb] at this
  rw [this]; simp only [binary32]; norm_num

theorem magVal32_inf : magVal binary32 0x7F800000 = 2 ^ 24 * 2 ^ 104 := by
  have := magVal_block binary32 253 (2 ^ 24) (by decide) (by decide)
  have hb : binary32.bias = 127 := by decide
  have e : 253 * 2 ^ binary32.manBits + (2 ^ 24) = 0x7F800000 := by decide
  rw [e, hb] at this
  rw [this]; simp only [binary32]; norm_num

theorem magVal64_thr : magVal binary64 0x47EFFFFFF0000000 = (2 ^ 25 - 1) * 2 ^ 103 := by
  have := magVal_block binary64 1149 0x1FFFFFF0000000 (by decide) (by decide)
  have hb : binary64.bias = 1023 := by decide
  have e : 1149 * 2 ^ binary64.manBits + 0x1FFFFFF0000000 = 0x47EFFFFFF0000000 := by decide
  rw [e, hb] at this
  rw [this]; simp only [binary64]; norm_num

/-- What narrowing does with a finite operand: the bracket of neighbouring magnitudes and which of them is taken. -/
theorem narrow32_finite (P : Params) (v : Word64) (h : v.toNat % 2 ^ 63 < 0x7FF0000000000000) :
    ∃ k r, narrow32 P v = sign64 v ++ BitVec.ofNat 31 (if r ≥ 0x7F800000 then 0x7F800000 else r) ∧
      magVal binary32 k ≤ magVal binary64 (v.toNat % 2 ^ 63) ∧
      magVal binary64 (v.toNat % 2 ^ 63) < magVal binary32 (k + 1) ∧
      (r = k ∧ (magVal binary64 (v.toNat % 2 ^ 63) - magVal binary32 k < magVal binary32 (k + 1) - magVal binary64 (v.toNat % 2 ^ 63) ∨
         (magVal binary64 (v.toNat % 2 ^ 63) - magVal binary32 k = magVal binary32 (k + 1) - magVal binary64 (v.toNat % 2 ^ 63) ∧ k % 2 = 0)) ∨
       r = k + 1 ∧ (magVal binary32 (k + 1) - magVal binary64 (v.toNat % 2 ^ 63) < magVal binary64 (v.toNat % 2 ^ 63) - magVal binary32 k ∨
         (magVal binary64 (v.toNat % 2 ^ 63) - magVal binary32 k = magVal binary32 (k + 1) - magVal binary64 (v.toNat % 2 ^ 63) ∧ k % 2 = 1))) := by
  have hsplit : (exp64 v).toNat * 2 ^ 52 + (man64 v).toNat = v.toNat % 2 ^ 63 := by
    rw [toNat_exp64, toNat_man64]; omega
  by_cases he : (exp64 v).toNat = 0
  · -- zero or subnormal
    have hn : narrow32 P v = sign64 v ++ (0 : BitVec 31) := by
      have hlt : v.toNat % 2 ^ 63 < 2 ^ 52 := by rw [toNat_exp64] at he; omega
      by_cases h0 : v.toNat % 2 ^ 63 = 0
      · have : class64 v = .zero := by rw [class64_eq, h0]; simp
        simp only [narrow32, this, zero32, pack32];
        rfl
      · have : class64 v = .subnormal := by
          rw [class64_eq, if_neg (by omega), if_neg (by omega), if_neg h0, if_pos hlt]
        simp only [narrow32, this, narrowFinite, if_pos he]
    have hlt : v.toNat % 2 ^ 63 < 2 ^ 52 := by rw [toNat_exp64] at he; omega
    have b64 : binary64.bias = 1023 := by decide
    have b32 : binary32.bias = 127 := by decide
    have v1 : magVal binary32 1 = (2 : ℚ) ^ (-149 : ℤ) := by
      have := magVal_block binary32 0 1 (by decide) (by decide)
      rw [b32] at this; simpa [binary32] using this
    have vx : magVal binary64 (v.toNat % 2 ^ 63) < (2 : ℚ) ^ (-1022 : ℤ) := by
      have h1 := magVal_block binary64 0 (2 ^ 52) (by decide) (by decide)
      have := magVal_strictMono binary64 hlt
      rw [Nat.zero_mul, Nat.zero_add] at h1
      rw [h1, b64] at this
      calc _ < _ := this
        _ = _ := by
          simp only [binary64]; push_cast
          rw [show (4503599627370496:ℚ) = 2 ^ (52:ℤ) by norm_num, ← zpow_add₀ (by norm_num)]; norm_num
    have hsmall : (2 : ℚ) ^ (-1022 : ℤ) < (2 : ℚ) ^ (-150 : ℤ) := zpow_lt_zpow_right₀ (by norm_num) (by norm_num)
    have hdouble : (2 : ℚ) ^ (-149 : ℤ) = 2 * (2 : ℚ) ^ (-150 : ℤ) := by
      rw [show (-149 : ℤ) = -150 + 1 by norm_num, zpow_add_one₀ (by norm_num)]; ring
    have hnn := magVal_nonneg binary64 (v.toNat % 2 ^ 63)
    have hpos : (0:ℚ) < (2 : ℚ) ^ (-150 : ℤ) := by positivity
    refine ⟨0, 0, by rw [hn]; rfl, ?_, ?_, ?_⟩
    · rw [magVal_zero]; exact hnn
    · rw [zero_add, v1]; linarith
    · left; refine ⟨rfl, Or.inl ?_⟩
      rw [magVal_zero, zero_add, v1]; linarith
  · have hm : (man64 v).toNat < 2 ^ 52 := (man64 v).isLt
    have he2 : (exp64 v).toNat < 2047 := by omega
    have hc : class64 v = .normal := by
      have : ¬ v.toNat % 2 ^ 63 < 2 ^ 52 := by omega
      rw [class64_eq, if_neg (by omega), if_neg (by omega), if_neg (by omega), if_neg this]
    obtain ⟨k, r, h1, h2, h3, h4, -⟩ := narrowFinite_spec (sign64 v) _ _ he he2 hm
    rw [hsplit] at h2 h3 h4
    exact ⟨k, r, by simp only [narrow32, hc, h1], h2, h3, h4⟩

theorem toNat_sign_append (s : BitVec 1) (k : Nat) (hk : k < 2 ^ 31) :
    (s ++ BitVec.ofNat 31 k).toNat = s.toNat * 2 ^ 31 + k := by
  rw [BitVec.toNat_append, ← Nat.shiftLeft_add_eq_or_of_lt (BitVec.isLt _), BitVec.toNat_ofNat, Nat.mod_eq_of_lt hk, Nat.shiftLeft_eq]

/-- What narrowing does with a finite operand: the nearest value below the overflow threshold, infinity from it on. -/
theorem narrow32_cases (P : Params) (v : Word64) (h : v.toNat % 2 ^ 63 < 0x7FF0000000000000) :
    (v.toNat % 2 ^ 63 < 0x47EFFFFFF0000000 → ∃ r, r < 0x7F800000 ∧ (narrow32 P v).toNat = (sign64 v).toNat * 2 ^ 31 + r ∧
       ∀ j, |magVal binary32 r - magVal binary64 (v.toNat % 2 ^ 63)| ≤ |magVal binary32 j - magVal binary64 (v.toNat % 2 ^ 63)| ∧
         (|magVal binary32 r - magVal binary64 (v.toNat % 2 ^ 63)| = |magVal binary32 j - magVal binary64 (v.toNat % 2 ^ 63)| → j ≠ r → r % 2 = 0)) ∧
    (0x47EFFFFFF0000000 ≤ v.toNat % 2 ^ 63 → narrow32 P v = inf32 (sign64 v)) := by
  obtain ⟨k, r, h1, h2, h3, h4⟩ := narrow32_finite P v h
  set x := magVal binary64 (v.toNat % 2 ^ 63) with hx
  have mono32 := magVal_strictMono binary32
  have ht := magVal32_top; have hi := magVal32_inf; have hthr := magVal64_thr
  constructor
  · intro hlt
    have hxlt : x < (2 ^ 25 - 1) * 2 ^ 103 := by rw [← hthr]; exact magVal_strictMono binary64 hlt
    have hk : k ≤ 0x7F7FFFFF := by
      by_contra hc
      have : magVal binary32 0x7F800000 ≤ magVal binary32 k := mono32.monotone (by omega)
      rw [hi] at this; norm_num at *; linarith
    have hr : r < 0x7F800000 := by
      rcases h4 with ⟨rfl, -⟩ | ⟨rfl, h4⟩
      · omega
      · rcases Nat.lt_or_ge k 0x7F7FFFFF with h' | h'
        · omega
        · obtain rfl : k = 0x7F7FFFFF := by omega
          exfalso
          rw [ht, hi] at h4
          rcases h4 with h4 | h4 <;> norm_num at * <;> linarith
    refine ⟨r, hr, ?_, nearest_of_bracket _ mono32 x k r h2 h3 h4⟩
    rw [h1, if_neg (by omega), toNat_sign_append _ _ (by omega)]
  · intro hge
    have hxge : (2 ^ 25 - 1) * 2 ^ 103 ≤ x := by rw [← hthr]; exact (magVal_strictMono binary64).monotone hge
    have hk : 0x7F7FFFFF ≤ k := by
      by_contra hc
      have : magVal binary32 (k + 1) ≤ magVal binary32 0x7F7FFFFF := mono32.monotone (by omega)
      rw [ht] at this; norm_num at *; linarith
    have hr : r ≥ 0x7F800000 := by
      rcases h4 with ⟨rfl, h4⟩ | ⟨rfl, -⟩
      · rcases Nat.lt_or_ge 0x7F7FFFFF r with h' | h'
        · omega
        · obtain rfl : r = 0x7F7FFFFF := by omega
          exfalso
          rw [ht, hi] at h4
          rcases h4 with h4 | ⟨-, h4⟩
          · norm_num at *; linarith
          · omega
      · omega
    rw [h1, if_pos hr]
    apply BitVec.eq_of_toNat_eq
    rw [toNat_sign_append _ _ (by norm_num), inf32, toNat_pack32]; simp

end Sys2Proof.Machine
end

