-- ==== Sys2Proof/Laws/PerInstr.lean ====
section
/-! SUPPORT. Per operation: the code its request carries is its own, is not the reserved one, and decides the
operation whatever the other fields hold (R24, R26). -/

namespace Sys2Proof.Laws.OpSelect

/-- The request of `i` carries the code of `i`, which is not the reserved code; and every request with that
code decodes to an operation with that code. -/
def Statement (i : Instr) : Prop :=
  (encode i).op = opCode i ∧ opCode i ≠ 0b111#3 ∧
    ∀ r : WireRequest, r.op = opCode i → ∃ j, decode r = .ok j ∧ opCode j = opCode i

theorem encode32 (v : Word64) : Statement (.encode32 v) :=
  ⟨rfl, (by decide : 0b000#3 ≠ 0b111#3), fun r e => ⟨.encode32 r.fval, by simp [decode, e, opCode], rfl⟩⟩

theorem encode64 (v : Word64) : Statement (.encode64 v) :=
  ⟨rfl, (by decide : 0b001#3 ≠ 0b111#3), fun r e => ⟨.encode64 r.fval, by simp [decode, e, opCode], rfl⟩⟩

theorem decode32 (b : BitString) : Statement (.decode32 b) :=
  ⟨rfl, (by decide : 0b010#3 ≠ 0b111#3), fun r e => ⟨.decode32 r.bitString, by simp [decode, e, opCode], rfl⟩⟩

theorem decode64 (b : BitString) : Statement (.decode64 b) :=
  ⟨rfl, (by decide : 0b011#3 ≠ 0b111#3), fun r e => ⟨.decode64 r.bitString, by simp [decode, e, opCode], rfl⟩⟩

theorem bitsFromHex32 (h : Str) : Statement (.bitsFromHex32 h) :=
  ⟨rfl, (by decide : 0b100#3 ≠ 0b111#3), fun r e => ⟨.bitsFromHex32 r.string, by simp [decode, e, opCode], rfl⟩⟩

theorem bitsFromHex64 (h : Str) : Statement (.bitsFromHex64 h) :=
  ⟨rfl, (by decide : 0b101#3 ≠ 0b111#3), fun r e => ⟨.bitsFromHex64 r.string, by simp [decode, e, opCode], rfl⟩⟩

theorem hexFromBits (b : BitString) : Statement (.hexFromBits b) :=
  ⟨rfl, (by decide : 0b110#3 ≠ 0b111#3), fun r e => ⟨.hexFromBits r.bitString, by simp [decode, e, opCode], rfl⟩⟩

end Sys2Proof.Laws.OpSelect
end

