-- ==== Sys2Proof/Laws/State.lean ====
section
/-! SUPPORT. The fields of a state after each update, so that no proof unfolds a record update. -/

namespace Sys2Proof.Machine

@[simp] theorem State.reply_requests (s : State) (r : Response) : (s.reply r).requests = s.requests := rfl

@[simp] theorem State.reply_responses (s : State) (r : Response) :
    (s.reply r).responses = s.responses ++ [r] := rfl

@[simp] theorem State.withRequests_requests (s : State) (rs : List WireRequest) :
    (s.withRequests rs).requests = rs := rfl

@[simp] theorem State.withRequests_responses (s : State) (rs : List WireRequest) :
    (s.withRequests rs).responses = s.responses := rfl

@[simp] theorem State.withFetchWord_requests (s : State) (nbits w : Nat) :
    (s.withFetchWord nbits w).requests = WireRequest.ofTableWord nbits w :: s.requests := rfl

@[simp] theorem State.withFetchWord_responses (s : State) (nbits w : Nat) :
    (s.withFetchWord nbits w).responses = s.responses := rfl

@[simp] theorem State.reset_requests : State.reset.requests = [] := rfl

@[simp] theorem State.reset_responses : State.reset.responses = [] := rfl

/-- A result ends the operation with the one response. -/
theorem State.succeed_eq (s : State) (r : Result) : s.succeed r = .next (s.reply (.ok r)) := rfl

/-- A failure ends the operation with the one response (R65). -/
theorem State.raise_eq (s : State) (k : Failure) : s.raise k = .next (s.reply (.fail k)) := rfl

end Sys2Proof.Machine
end

