-- ==== Sys2Proof/Laws/Widen.lean ====
section
/-! SUPPORT. Widening to binary64 (R44, R45). -/

namespace Sys2Proof.Machine

theorem nonZero_ne {n : Nat} (h : 0 < n) (p : BitVec n) : nonZero p ≠ 0 := by
  unfold nonZero; split
  · intro e; have := congrArg BitVec.toNat e
    simp at this; omega
  · assumption

theorem binary64_manBits : binary64.manBits = 52 := rfl

theorem binary32_manBits : binary32.manBits = 23 := rfl

theorem binary32_bias : binary32.bias = 127 := by decide

theorem binary64_bias : binary64.bias = 1023 := by decide

/-- Widening keeps the value and the sign of a finite pattern. -/
theorem widen32_finite (P : Params) (w : Word32) (h : w.toNat % 2 ^ 31 < 0x7F800000) :
    ∃ M, M < 0x7FF0000000000000 ∧ (widen32 P w).toNat = (sign32 w).toNat * 2 ^ 63 + M ∧
      magVal binary64 M = magVal binary32 (w.toNat % 2 ^ 31) := by
  have hsplit : (exp32 w).toNat * 2 ^ 23 + (man32 w).toNat = w.toNat % 2 ^ 31 := by
    rw [toNat_exp32, toNat_man32]; omega
  have hm : (man32 w).toNat < 2 ^ 23 := (man32 w).isLt
  have he : (exp32 w).toNat < 255 := by omega
  by_cases h0 : (exp32 w).toNat = 0
  · by_cases hm0 : (man32 w).toNat = 0
    · have hc : class32 w = .zero := by
        rw [class32_eq, if_neg (by omega), if_neg (by omega), if_pos (by omega)]
      refine ⟨0, by omega, ?_, ?_⟩
      · simp only [widen32, hc, zero64, toNat_pack64]; simp
      · rw [← hsplit, h0, hm0, magVal_zero, Nat.zero_mul, Nat.zero_add, magVal_zero]
    · have hc : class32 w = .subnormal := by
        rw [class32_eq, if_neg (by omega), if_neg (by omega), if_neg (by omega), if_pos (by omega)]
      obtain ⟨m, hmdef⟩ : ∃ m, m = (man32 w).toNat := ⟨_, rfl⟩
      rw [← hmdef] at hm0 hm hsplit
      obtain ⟨k, hk⟩ : ∃ k, k = Nat.log2 m := ⟨_, rfl⟩
      have hk1 : 2 ^ k ≤ m := hk ▸ Nat.log2_self_le hm0
      have hk2 : m < 2 ^ (k + 1) := hk ▸ Nat.lt_log2_self
      have hk23 : k < 23 := hk ▸ (Nat.log2_lt hm0).2 hm
      have hpk : 2 ^ k * 2 ^ (52 - k) = 2 ^ 52 := by rw [← pow_add]; congr 1; omega
      have hlt : (m - 2 ^ k) * 2 ^ (52 - k) < 2 ^ 52 := by
        rw [← hpk]; exact Nat.mul_lt_mul_of_pos_right (by rw [pow_succ] at hk2; omega) (by positivity)
      have hq : 2 ^ 52 + (m - 2 ^ k) * 2 ^ (52 - k) = m * 2 ^ (52 - k) := by
        rw [← hpk, ← Nat.add_mul]; congr 1; omega
      refine ⟨(k + 874) * 2 ^ 52 + (m - 2 ^ k) * 2 ^ (52 - k), by clear hsplit; omega, ?_, ?_⟩
      · simp only [widen32, hc, toNat_pack64, ← hmdef, ← hk, BitVec.toNat_ofNat]
        rw [Nat.mod_eq_of_lt hlt, Nat.mod_eq_of_lt (by omega)]; exact Nat.add_assoc _ _ _
      · have e1 : (k + 874) * 2 ^ 52 + (m - 2 ^ k) * 2 ^ (52 - k) = (k + 873) * 2 ^ binary64.manBits + m * 2 ^ (52 - k) := by
          rw [← hq, binary64_manBits]; ring
        rw [e1, magVal_block binary64 _ _ (by rw [← hq, binary64_manBits]; clear * - hlt; omega) (Or.inr (by rw [← hq, binary64_manBits]; exact Nat.le_add_right _ _)), ← hsplit, h0]
        have := magVal_block binary32 0 m (by clear hsplit; simp only [binary32]; omega) (Or.inl rfl)
        rw [Nat.zero_mul] at this
        rw [Nat.zero_mul, this, binary32_bias, binary64_bias]
        push_cast
        rw [mul_assoc]; congr 1
        rw [← zpow_natCast, ← zpow_add₀ (by norm_num)]; refine congrArg (fun z : ℤ => (2:ℚ) ^ z) ?_
        simp only [binary32_manBits, binary64_manBits]; clear * - hk23; omega
  · have hc : class32 w = .normal := by
      have : ¬ w.toNat % 2 ^ 31 < 2 ^ 23 := by omega
      rw [class32_eq, if_neg (by omega), if_neg (by omega), if_neg (by omega), if_neg this]
    obtain ⟨m, hmdef⟩ : ∃ m, m = (man32 w).toNat := ⟨_, rfl⟩
    obtain ⟨e, hedef⟩ : ∃ e, e = (exp32 w).toNat := ⟨_, rfl⟩
    rw [← hmdef] at hm hsplit
    rw [← hedef] at h0 he hsplit
    refine ⟨(e + 896) * 2 ^ 52 + m * 2 ^ 29, by clear hsplit; omega, ?_, ?_⟩
    · simp only [widen32, hc, toNat_pack64, ← hedef, BitVec.toNat_ofNat]
      rw [Nat.mod_eq_of_lt (by omega), BitVec.toNat_append, ← hmdef]
      clear hsplit; simp [Nat.shiftLeft_eq]; omega
    · have e1 : (e + 896) * 2 ^ 52 + m * 2 ^ 29 = (e + 895) * 2 ^ binary64.manBits + (2 ^ 23 + m) * 2 ^ 29 := by
        clear hsplit; simp only [binary64]; omega
      have e2 : e * 2 ^ 23 + m = (e - 1) * 2 ^ binary32.manBits + (2 ^ 23 + m) := by
        obtain ⟨e', rfl⟩ := Nat.exists_eq_add_of_lt (Nat.pos_of_ne_zero h0)
        rw [binary32_manBits, Nat.add_sub_cancel]; ring
      rw [e1, magVal_block binary64 _ _ (by clear hsplit; simp only [binary64]; omega) (Or.inr (by clear hsplit; simp only [binary64]; omega)), ← hsplit, e2,
        magVal_block binary32 _ _ (by clear hsplit; simp only [binary32]; omega) (Or.inr (by clear hsplit; simp only [binary32]; omega)), binary32_bias, binary64_bias]
      rw [Nat.cast_mul, Nat.cast_pow, Nat.cast_ofNat, mul_assoc]; congr 1
      rw [← zpow_natCast, ← zpow_add₀ (by norm_num)]; refine congrArg (fun z : ℤ => (2:ℚ) ^ z) ?_
      simp only [binary32_manBits, binary64_manBits]; clear * - h0; omega

/-- Narrowing keeps a value that binary32 has. -/
theorem narrow32_exact (P : Params) (v : Word64) (j : Nat) (hj : j < 0x7F800000)
    (h : magVal binary64 (v.toNat % 2 ^ 63) = magVal binary32 j) (hv : v.toNat % 2 ^ 63 < 0x7FF0000000000000) :
    (narrow32 P v).toNat = (sign64 v).toNat * 2 ^ 31 + j := by
  have hlt : v.toNat % 2 ^ 63 < 0x47EFFFFFF0000000 := by
    rw [← (magVal_strictMono binary64).lt_iff_lt, h, magVal64_thr]
    have := (magVal_strictMono binary32).monotone (show j ≤ 0x7F7FFFFF by omega)
    rw [magVal32_top] at this
    norm_num at *; linarith
  obtain ⟨r, hr, hn, hnear⟩ := (narrow32_cases P v hv).1 hlt
  have := (hnear j).1
  rw [h, sub_self, abs_zero] at this
  have e : magVal binary32 r = magVal binary32 j := by
    have := abs_nonpos_iff.1 this; linarith
  rw [hn, (magVal_strictMono binary32).injective e]

theorem sign64_widen32 (P : Params) (w : Word32) : sign64 (widen32 P w) = sign32 w := by
  unfold widen32
  simp only
  split <;> simp only [inf64, nan64, zero64, sign64_pack64]

/-- `NAN_32(s, p)` is a NaN (R35). -/
theorem class32_nan32 (s : BitVec 1) (p : BitVec 23) (hp : p ≠ 0) : class32 (nan32 s p) = .nan := by
  have : p.toNat ≠ 0 := fun h => hp (BitVec.eq_of_toNat_eq (by simpa using h))
  have h2 := p.isLt
  rw [class32, nan32, exp32_pack32, man32_pack32, classify, if_pos rfl, if_neg hp]

/-- `NAN_64(s, p)` is a NaN (R35). -/
theorem class64_nan64 (s : BitVec 1) (p : BitVec 52) (hp : p ≠ 0) : class64 (nan64 s p) = .nan := by
  rw [class64, nan64, exp64_pack64, man64_pack64, classify, if_pos rfl, if_neg hp]

theorem class64_widen32 (P : Params) (hP : ∀ m, P.nanWiden m ≠ 0) (w : Word32) :
   (class64 (widen32 P w) = .nan ↔ class32 w = .nan) ∧ (class64 (widen32 P w) = .infinity ↔ class32 w = .infinity) ∧
   (class64 (widen32 P w) = .zero ↔ class32 w = .zero) := by
  cases hc : class32 w with
  | nan => simp only [widen32, hc, class64_nan64 _ _ (hP _)]; simp
  | infinity => simp only [widen32, hc]; rw [class64, inf64, exp64_pack64, man64_pack64]; simp [classify]
  | zero => simp only [widen32, hc]; rw [class64, zero64, exp64_pack64, man64_pack64]; simp [classify]
  | _ =>
    have hlt : w.toNat % 2 ^ 31 < 0x7F800000 ∧ w.toNat % 2 ^ 31 ≠ 0 := by
      rw [class32_eq] at hc; split_ifs at hc <;> omega
    obtain ⟨M, hM, hw, hv⟩ := widen32_finite P w hlt.1
    have hmod : (widen32 P w).toNat % 2 ^ 63 = M := by rw [hw]; omega
    have hM0 : M ≠ 0 := by
      rintro rfl
      rw [magVal_zero, ← magVal_zero binary32] at hv
      exact hlt.2 ((magVal_strictMono binary32).injective hv).symm
    rw [class64_eq, hmod]
    refine ⟨?_, ?_, ?_⟩ <;> split_ifs <;> simp <;> omega

end Sys2Proof.Machine
end

