-- ==== Sys2Proof/Laws/Text.lean ====
section
/-! SUPPORT. Reading a text back (R50, R51). -/

namespace Sys2Proof.Machine

theorem decDigit_digitChar (d : Nat) (h : d < 10) : decDigit? (digitChar d) = some d := by
  have : (digitChar d).toNat = 0x30 + d := by
    simp only [digitChar, if_pos h, BitVec.toNat_ofNat]; omega
  simp only [decDigit?, this]
  rw [if_pos (by omega)]; congr 1; omega

theorem spanDigits_map (ds : List Nat) (h : ∀ d ∈ ds, d < 10) (rest : Str) (hr : (spanDigits rest).1 = []) :
    spanDigits (ds.map digitChar ++ rest) = (ds, rest) := by
  have hrest : spanDigits rest = ([], rest) := by
    cases rest with
    | nil => rfl
    | cons c cs =>
      rw [spanDigits] at hr ⊢
      split at hr
      · rfl
      · simp at hr
  induction ds with
  | nil => simpa using hrest
  | cons d ds ih =>
    have := ih (fun x hx => h x (by simp [hx]))
    rw [List.map_cons, List.cons_append, spanDigits, decDigit_digitChar d (h d (by simp))]
    simp [this]

theorem spanDigits_decText (n : Nat) (rest : Str) (hr : (spanDigits rest).1 = []) :
    spanDigits (decText n ++ rest) = (digitsOf 10 n, rest) :=
  spanDigits_map _ (digitsOf_spec 10 (by norm_num) n).2.1 rest hr

theorem spanDigits_decText_end (n : Nat) : spanDigits (decText n) = (digitsOf 10 n, []) := by
  have := spanDigits_decText n [] rfl
  rwa [List.append_nil] at this

theorem parseExponent_text (k : Nat) (neg : Bool) :
    parseExponent (chE :: (if neg then chMinus else chPlus) :: decText k) = some (if neg then -(k : Int) else k) := by
  obtain ⟨h1, -, h3, -⟩ := digitsOf_spec 10 (by norm_num) k
  rw [parseExponent]
  simp only [spanDigits_decText_end, h1]
  rw [if_neg (by simp [h3])]
  cases neg <;> simp [chPlus, chMinus]

theorem parseUnsigned_exact (neg : Bool) (n k : Nat) (sg : Bool) :
    parseUnsigned neg (decText n ++ (chE :: (if sg then chMinus else chPlus) :: decText k)) =
      some ⟨neg, n, if sg then -(k : Int) else k⟩ := by
  obtain ⟨h1, -, h3, -⟩ := digitsOf_spec 10 (by norm_num) n
  have hs := spanDigits_decText n (chE :: (if sg then chMinus else chPlus) :: decText k) (by
    rw [spanDigits]; rfl)
  rw [parseUnsigned]
  simp only [hs, if_neg h3, h1]
  rw [if_neg (by decide), parseExponent_text]; rfl

theorem decText_head (n : Nat) : ∃ c cs, decText n = c :: cs ∧ 0x30 ≤ c.toNat ∧ c.toNat ≤ 0x39 := by
  obtain ⟨-, h2, h3, -⟩ := digitsOf_spec 10 (by norm_num) n
  obtain ⟨d, ds, hd⟩ := List.exists_cons_of_ne_nil h3
  have : d < 10 := h2 d (by rw [hd]; simp)
  have hc : (digitChar d).toNat = 0x30 + d := by
    simp only [digitChar, if_pos this, BitVec.toNat_ofNat]; omega
  exact ⟨digitChar d, ds.map digitChar, by rw [decText, hd]; rfl, by omega, by omega⟩

/-- The numeral an exact text is read as. -/
theorem parseNumeral_exact (s : BitVec 1) (mant : Nat) (x : Int) :
    parseNumeral (exactText s mant x) =
      some ⟨s = 1, mant * 2 ^ x.toNat * 5 ^ (-x).toNat, if x < 0 then x else 0⟩ := by
  obtain ⟨c, cs, hc, hlo, hhi⟩ := decText_head (mant * 2 ^ x.toNat * 5 ^ (-x).toNat)
  have hu : ∀ neg, parseUnsigned neg (decText (mant * 2 ^ x.toNat * 5 ^ (-x).toNat) ++
      (chE :: (if x < 0 then chMinus else chPlus) :: decText (-x).toNat)) =
      some ⟨neg, mant * 2 ^ x.toNat * 5 ^ (-x).toNat, if x < 0 then x else 0⟩ := by
    intro neg
    have := parseUnsigned_exact neg (mant * 2 ^ x.toNat * 5 ^ (-x).toNat) (-x).toNat (x < 0)
    simp only [decide_eq_true_eq] at this
    rw [this]
    congr 2
    split_ifs <;> omega
  unfold exactText signText
  by_cases hs : s = 1
  · rw [if_pos hs]
    simp only [List.cons_append, List.nil_append, parseNumeral, if_true, hs, hu]; rfl
  · rw [if_neg hs, List.nil_append]
    have hm : c ≠ chMinus := by rintro rfl; simp [chMinus] at hlo
    have := hu false
    rw [hc] at this ⊢
    simp only [List.cons_append, parseNumeral, if_neg hm] at this ⊢
    rw [this, decide_eq_false hs]

theorem exactText_not_fixed (s : BitVec 1) (mant : Nat) (x : Int) :
    exactText s mant x ≠ txtInf ∧ exactText s mant x ≠ txtNegInf ∧ exactText s mant x ≠ txtNan ∧ exactText s mant x ≠ txtNegNan := by
  have h := parseNumeral_exact s mant x
  refine ⟨?_, ?_, ?_, ?_⟩ <;> intro e <;> rw [e] at h <;> revert h
  · rw [show parseNumeral txtInf = none by decide]; simp
  · rw [show parseNumeral txtNegInf = none by decide]; simp
  · rw [show parseNumeral txtNan = none by decide]; simp
  · rw [show parseNumeral txtNegNan = none by decide]; simp

/-- What `floorLog2` computes. -/
theorem floorLog2_spec (n d : Nat) (hn : n ≠ 0) (hd : d ≠ 0) :
    (2 : ℚ) ^ (floorLog2 n d) ≤ n / d ∧ (n / d : ℚ) < (2 : ℚ) ^ (floorLog2 n d + 1) := by
  have n1 : (2 : ℚ) ^ (Nat.log2 n : ℤ) ≤ n := by rw [zpow_natCast]; exact_mod_cast Nat.log2_self_le hn
  have n2 : (n : ℚ) < (2 : ℚ) ^ ((Nat.log2 n : ℤ) + 1) := by
    have := Nat.lt_log2_self (n := n); rw [← Nat.cast_succ, zpow_natCast]; exact_mod_cast this
  have d1 : (2 : ℚ) ^ (Nat.log2 d : ℤ) ≤ d := by rw [zpow_natCast]; exact_mod_cast Nat.log2_self_le hd
  have d2 : (d : ℚ) < (2 : ℚ) ^ ((Nat.log2 d : ℤ) + 1) := by
    have := Nat.lt_log2_self (n := d); rw [← Nat.cast_succ, zpow_natCast]; exact_mod_cast this
  have dpos : (0 : ℚ) < d := by positivity
  have npos : (0 : ℚ) < n := by positivity
  set x : ℤ := (Nat.log2 n : ℤ) - Nat.log2 d with hx
  have test : d * 2 ^ x.toNat ≤ n * 2 ^ (-x).toNat ↔ (2 : ℚ) ^ x ≤ n / d := by
    rw [le_div_iff₀ dpos]
    have c : (2 : ℚ) ^ x * d ≤ n ↔ ((d * 2 ^ x.toNat : ℕ) : ℚ) ≤ (n * 2 ^ (-x).toNat : ℕ) := by
      push_cast
      rcases le_total 0 x with h | h
      · obtain ⟨k, hk⟩ := Int.eq_ofNat_of_zero_le h
        rw [hk]; simp [mul_comm]
      · obtain ⟨k, hk⟩ := Int.eq_ofNat_of_zero_le (neg_nonneg.2 h)
        have : x = -(k : ℤ) := by omega
        rw [this, zpow_neg, zpow_natCast]; simp
        rw [inv_mul_le_iff₀ (by positivity), mul_comm]
    rw [c]; exact_mod_cast Iff.rfl
  have up : (n / d : ℚ) < (2 : ℚ) ^ (x + 1) := by
    rw [div_lt_iff₀ dpos]
    calc (n : ℚ) < (2 : ℚ) ^ ((Nat.log2 n : ℤ) + 1) := n2
      _ = (2 : ℚ) ^ (x + 1) * (2 : ℚ) ^ (Nat.log2 d : ℤ) := by rw [← zpow_add₀ (by norm_num)]; congr 1; omega
      _ ≤ _ := mul_le_mul_of_nonneg_left d1 (by positivity)
  have lo : (2 : ℚ) ^ (x - 1) ≤ n / d := by
    rw [le_div_iff₀ dpos]
    calc (2 : ℚ) ^ (x - 1) * d ≤ (2 : ℚ) ^ (x - 1) * (2 : ℚ) ^ ((Nat.log2 d : ℤ) + 1) := mul_le_mul_of_nonneg_left d2.le (by positivity)
      _ = (2 : ℚ) ^ (Nat.log2 n : ℤ) := by rw [← zpow_add₀ (by norm_num)]; congr 1; omega
      _ ≤ n := n1
  unfold floorLog2
  simp only [← hx]
  split_ifs with h
  · exact ⟨test.1 h, up⟩
  · rw [test, not_le] at h
    rw [sub_add_cancel]; exact ⟨lo, h⟩

theorem zpow_unique {x : ℚ} {a b : ℤ} (h1 : (2 : ℚ) ^ a ≤ x) (h2 : x < (2 : ℚ) ^ (a + 1)) (h3 : (2 : ℚ) ^ b ≤ x) (h4 : x < (2 : ℚ) ^ (b + 1)) : a = b := by
  have i1 := (zpow_lt_zpow_iff_right₀ (by norm_num : (1:ℚ) < 2)).1 (lt_of_le_of_lt h1 h4)
  have i2 := (zpow_lt_zpow_iff_right₀ (by norm_num : (1:ℚ) < 2)).1 (lt_of_le_of_lt h3 h2)
  omega

theorem roundQuot_exact (n d q : Nat) (hd : d ≠ 0) (h : n = q * d) : roundQuot n d = q := by
  subst h
  simp [roundQuot, Nat.mul_div_cancel _ (Nat.pos_of_ne_zero hd), Nat.mul_mod_left]; omega

/-- A rational that the format has is rounded to itself. -/
theorem roundMag_exact (F : Format) (n d k : Nat) (hd : d ≠ 0) (hk0 : k ≠ 0) (hk : k < infMag F)
    (h : (n : ℚ) / d = magVal F k) : roundMag F n d = k := by
  have dpos : (0 : ℚ) < d := by positivity
  have kpos : 0 < magVal F k := by rw [← magVal_zero F]; exact magVal_strictMono F (Nat.pos_of_ne_zero hk0)
  have hn : n ≠ 0 := by
    rintro rfl
    simp at h; rw [← h] at kpos; exact lt_irrefl _ kpos
  obtain ⟨f1, f2⟩ := floorLog2_spec n d hn hd
  obtain ⟨t, q, hkt, hq, ht⟩ := mag_block F k
  have hv := magVal_block F t q hq.le ht
  rw [← hkt] at hv
  set U : ℤ := (t : ℤ) + 1 - F.bias - F.manBits with hU
  rw [h] at f1 f2
  have hx : max (floorLog2 n d) (1 - (F.bias : ℤ)) = (t : ℤ) + 1 - F.bias := by
    by_cases hqm : 2 ^ F.manBits ≤ q
    · have b1 : (2 : ℚ) ^ ((t : ℤ) + 1 - F.bias) ≤ magVal F k := by
        rw [hv]
        calc (2 : ℚ) ^ ((t : ℤ) + 1 - F.bias) = ((2 ^ F.manBits : ℕ) : ℚ) * (2 : ℚ) ^ U := by
              push_cast; rw [← zpow_natCast, ← zpow_add₀ (by norm_num)]; congr 1; omega
          _ ≤ _ := mul_le_mul_of_nonneg_right (by exact_mod_cast hqm) (by positivity)
      have b2 : magVal F k < (2 : ℚ) ^ ((t : ℤ) + 1 - F.bias + 1) := by
        rw [hv]
        calc (q : ℚ) * (2 : ℚ) ^ U < ((2 ^ (F.manBits + 1) : ℕ) : ℚ) * (2 : ℚ) ^ U := mul_lt_mul_of_pos_right (by exact_mod_cast hq) (by positivity)
          _ = _ := by push_cast; rw [← zpow_natCast, ← zpow_add₀ (by norm_num)]; congr 1; push_cast; omega
      rw [zpow_unique f1 f2 b1 b2]; omega
    · obtain rfl : t = 0 := by omega
      have b2 : magVal F k < (2 : ℚ) ^ (1 - (F.bias : ℤ)) := by
        rw [hv]
        calc (q : ℚ) * (2 : ℚ) ^ U < ((2 ^ F.manBits : ℕ) : ℚ) * (2 : ℚ) ^ U := mul_lt_mul_of_pos_right (by exact_mod_cast not_le.1 hqm) (by positivity)
          _ = _ := by push_cast; rw [← zpow_natCast, ← zpow_add₀ (by norm_num)]; congr 1; omega
      have := (zpow_lt_zpow_iff_right₀ (by norm_num : (1:ℚ) < 2)).1 (lt_of_le_of_lt f1 b2)
      omega
  have hqq : roundQuot (n * 2 ^ (-U).toNat) (d * 2 ^ U.toNat) = q := by
    apply roundQuot_exact _ _ _ (by positivity)
    have hnq : (n : ℚ) = q * (2 : ℚ) ^ U * d := by rw [← hv, ← h]; field_simp
    have : ((n * 2 ^ (-U).toNat : ℕ) : ℚ) = (q * (d * 2 ^ U.toNat) : ℕ) := by
      push_cast
      rw [hnq]
      rcases le_total 0 U with hh | hh
      · obtain ⟨j, hj⟩ := Int.eq_ofNat_of_zero_le hh
        rw [hj]; simp; ring
      · obtain ⟨j, hj⟩ := Int.eq_ofNat_of_zero_le (neg_nonneg.2 hh)
        have : U = -(j : ℤ) := by omega
        rw [this, zpow_neg, zpow_natCast]; simp; field_simp
    exact_mod_cast this
  unfold roundMag
  rw [if_neg hn]
  simp only [hx, ← hU, hqq]
  have : ((t : ℤ) + 1 - F.bias + F.bias - 1).toNat = t := by omega
  rw [this, ← hkt]; exact min_eq_left hk.le

theorem toWord64_exact (s : BitVec 1) (mant : Nat) (x : Int) (k : Nat) (hk0 : k ≠ 0) (hk : k < 0x7FF0000000000000)
    (h : (mant : ℚ) * (2 : ℚ) ^ x = magVal binary64 k) :
    (Numeral.toWord64 ⟨s = 1, mant * 2 ^ x.toNat * 5 ^ (-x).toNat, if x < 0 then x else 0⟩).toNat = s.toNat * 2 ^ 63 + k := by
  have hr : roundMag binary64 (mant * 2 ^ x.toNat * 5 ^ (-x).toNat * 10 ^ (if x < 0 then x else 0).toNat) (10 ^ (-(if x < 0 then x else 0)).toNat) = k := by
    apply roundMag_exact _ _ _ _ (by positivity) hk0 (by simpa [infMag, binary64] using hk)
    rw [← h]
    push_cast
    split_ifs with hx
    · obtain ⟨j, hj⟩ := Int.eq_ofNat_of_zero_le (neg_nonneg.2 hx.le)
      have : x = -(j : ℤ) := by omega
      rw [this, zpow_neg, zpow_natCast]; simp
      rw [show (10:ℚ) = 2 * 5 by norm_num, mul_pow]; field_simp
    · obtain ⟨j, hj⟩ := Int.eq_ofNat_of_zero_le (not_lt.1 hx)
      rw [hj, zpow_natCast]; simp
  unfold Numeral.toWord64
  simp only [hr]
  rw [BitVec.toNat_append, ← Nat.shiftLeft_add_eq_or_of_lt (BitVec.isLt _), BitVec.toNat_ofNat, Nat.mod_eq_of_lt (by omega), Nat.shiftLeft_eq]
  congr 2
  have : s = 0 ∨ s = 1 := by revert s; decide
  rcases this with rfl | rfl <;> rfl

/-- The exact numeral of a finite value that is not zero is a numeral of the grammar, and is read back. -/
theorem parseRef_exact (d : Word64) (h0 : d.toNat % 2 ^ 63 ≠ 0) (h : d.toNat % 2 ^ 63 < 0x7FF0000000000000) :
    parseRef (exactTextOf d) = some d ∧ (parseNumeral (exactTextOf d)).isSome := by
  have hv := toRat_val64 d h
  cases hval : val64 d with
  | infinity g => rw [hval] at hv; simp [Value.toRat] at hv
  | nan => rw [hval] at hv; simp [Value.toRat] at hv
  | finite neg k x =>
    have hneg : neg = decide (sign64 d = 1) := by
      rw [val64, val] at hval; split_ifs at hval <;> simp at hval <;> simp [← hval.1]
    rw [hval] at hv
    simp only [Value.toRat, Option.some.injEq, hneg, decide_eq_true_eq] at hv
    have hkx : (k : ℚ) * (2 : ℚ) ^ x = magVal binary64 (d.toNat % 2 ^ 63) := by
      rw [mul_assoc] at hv
      exact mul_left_cancel₀ (by split_ifs <;> norm_num) hv
    have e : exactTextOf d = exactText (sign64 d) k x := by rw [exactTextOf, hval]
    rw [e, parseRef]
    obtain ⟨a1, a2, a3, a4⟩ := exactText_not_fixed (sign64 d) k x
    rw [if_neg a1, if_neg a2, if_neg a3, if_neg a4, parseNumeral_exact]
    refine ⟨?_, rfl⟩
    rw [Option.map_some, Option.some.injEq]
    apply BitVec.eq_of_toNat_eq
    rw [toWord64_exact (sign64 d) k x _ h0 h hkx, toNat_sign64]; omega

theorem mag_of_finite_class (d : Word64) (h : class64 d = .normal ∨ class64 d = .subnormal) : d.toNat % 2 ^ 63 ≠ 0 ∧ d.toNat % 2 ^ 63 < 0x7FF0000000000000 := by
  rw [class64_eq] at h
  split_ifs at h <;> simp at h <;> omega

/-- Whatever the free text, the text used reads back (R50). -/
theorem readableText_reads (d : Word64) (h : class64 d = .normal ∨ class64 d = .subnormal) (t : Str) :
    (parseNumeral (readableText d t)).isSome ∧ parseRef (readableText d t) = some d := by
  unfold readableText
  split_ifs with hr
  · exact hr
  · obtain ⟨h0, h1⟩ := mag_of_finite_class d h
    exact (parseRef_exact d h0 h1).symm

theorem sign64_eq_one_iff (d : Word64) : sign64 d = 1 ↔ d.getLsbD 63 = true := by
  rw [← sign64_getLsbD]; generalize sign64 d = x; revert x; decide

theorem eq_of_mag (d e : Word64) (hs : sign64 d = sign64 e) (hm : d.toNat % 2 ^ 63 = e.toNat % 2 ^ 63) : d = e := by
  apply BitVec.eq_of_toNat_eq
  have := congrArg BitVec.toNat hs
  rw [toNat_sign64, toNat_sign64] at this; omega

end Sys2Proof.Machine
end

