-- ==== Sys2Proof/Tests/Slice0.lean ====
section
/-! SUPPORT. Tests: ill-formed terms refused, written-out requests decoded, one step per vector of
95_test_vectors.md, its tables on the functions they test, and a witness for the hypotheses of every
obligation that has any. Expected values are the spec's own. -/

-- One theorem after the other: checked all at once, their threads take more memory than the check allows.
set_option Elab.async false

namespace Sys2Proof.Tests
open Sys2Proof.Machine

/-! ## Helpers -/

/-- The codes of a String. -/
def str (s : String) : Str := s.toList.map fun c => BitVec.ofNat 8 c.toNat

/-- A BitString written as the spec writes one. -/
def bits (s : String) : BitString := s.toList.map fun c => c == '1'

/-- The responses after a step; none when it answers no state. -/
def produced : Answer → Option (List Response)
  | .next t => some t.responses
  | .fault _ => none
  | .refused _ => none

/-- Why a step was refused. -/
def refusal : Answer → Option Refusal
  | .next _ => none
  | .fault _ => none
  | .refused w => some w

/-- The result of the last response, if it is a decode. -/
def decodedOf : Answer → Option Decoded
  | .next t => match t.responses.getLast? with
    | some (.ok (.decoded d)) => some d
    | _ => none
  | .fault _ => none
  | .refused _ => none

/-- One step on one request, after one earlier response. -/
def stepOn (r : WireRequest) : Answer := step { requests := [r], responses := [.fail .invalidHex] }

/-- A step's responses when it adds `a`. -/
def added (a : Response) : Option (List Response) := some [.fail .invalidHex, a]

/-! ## WellFormed refuses what does not fit the wire -/

theorem test_wf_decode32 : (Instr.decode32 (List.replicate 256 false)).wellFormed = false := by decide +kernel
theorem test_wf_decode64 : (Instr.decode64 (List.replicate 256 true)).wellFormed = false := by decide +kernel
theorem test_wf_bitsFromHex32 : (Instr.bitsFromHex32 (List.replicate 256 0x30#8)).wellFormed = false := by
  decide +kernel
theorem test_wf_bitsFromHex64 : (Instr.bitsFromHex64 (List.replicate 256 0x31#8)).wellFormed = false := by
  decide +kernel
theorem test_wf_hexFromBits : (Instr.hexFromBits (List.replicate 256 true)).wellFormed = false := by decide +kernel
theorem test_wf_longest : (Instr.hexFromBits (List.replicate 255 true)).wellFormed = true := by decide +kernel

/-! ## Written-out requests decode (R21, R24, R25): unread fields and elements hold anything -/

theorem test_decode_encode32 :
    decode { op := 0b000#3, fval := 0x40091EB851EB851F#64, bsLen := 7#8, bs := 0x55#255, hxLen := 9#8, hx := 3#2040 }
      = .ok (.encode32 0x40091EB851EB851F#64) := by decide +kernel
theorem test_decode_encode64 :
    decode { op := 0b001#3, fval := 0xFFF0000000000001#64, bsLen := 7#8, bs := 0x55#255, hxLen := 9#8, hx := 3#2040 }
      = .ok (.encode64 0xFFF0000000000001#64) := by decide +kernel
theorem test_decode_decode32 :
    decode { op := 0b010#3, fval := 1#64, bsLen := 4#8, bs := 0xFFF2#255, hxLen := 9#8, hx := 3#2040 }
      = .ok (.decode32 [false, true, false, false]) := by decide +kernel
theorem test_decode_decode64 :
    decode { op := 0b011#3, fval := 1#64, bsLen := 5#8, bs := 0x31#255, hxLen := 9#8, hx := 3#2040 }
      = .ok (.decode64 [true, false, false, false, true]) := by decide +kernel
theorem test_decode_bitsFromHex32 :
    decode { op := 0b100#3, fval := 1#64, bsLen := 4#8, bs := 0x31#255, hxLen := 4#8, hx := 0xFF_31_67_78_30#2040 }
      = .ok (.bitsFromHex32 [0x30#8, 0x78#8, 0x67#8, 0x31#8]) := by decide +kernel
theorem test_decode_bitsFromHex64 :
    decode { op := 0b101#3, fval := 1#64, bsLen := 4#8, bs := 0x31#255, hxLen := 1#8, hx := 0x66_30#2040 }
      = .ok (.bitsFromHex64 [0x30#8]) := by decide +kernel
theorem test_decode_hexFromBits :
    decode { op := 0b110#3, fval := 1#64, bsLen := 3#8, bs := 0x6#255, hxLen := 1#8, hx := 0x66_30#2040 }
      = .ok (.hexFromBits [false, true, true]) := by decide +kernel
theorem test_decode_reserved :
    decode { op := 0b111#3, fval := 1#64, bsLen := 3#8, bs := 0x6#255, hxLen := 1#8, hx := 0x66_30#2040 }
      = .error .reservedOp := by decide +kernel
theorem test_decode_last_elements :
    (WireRequest.mk 0b110#3 0#64 255#8 (BitVec.twoPow 255 254) 255#8 (BitVec.twoPow 2040 2039)).bitString[254]? = some true
    ∧ (WireRequest.mk 0b100#3 0#64 255#8 0#255 255#8 (BitVec.twoPow 2040 2039)).string[254]? = some 0x80#8 := by
  decide +kernel

/-! ## One step per operation, vectors of 95_test_vectors.md -/

/-- E5, the source's example. -/
theorem test_encode32_E5 :
    produced (stepOn { WireRequest.blank 0b000#3 with fval := 0x40091EB851EB851F#64, bsLen := 3 }) =
      added (.ok (.bits (bits "01000000010010001111010111000011"))) := by decide +kernel
/-- E27, minus the overflow threshold. -/
theorem test_encode32_E27 :
    produced (stepOn { WireRequest.blank 0b000#3 with fval := 0xC7EFFFFFF0000000#64 }) =
      added (.ok (.bits (bits "11111111100000000000000000000000"))) := by decide +kernel
/-- F6, a NaN, every bit kept. -/
theorem test_encode64_F6 :
    produced (stepOn { WireRequest.blank 0b001#3 with fval := 0xFFF0000000000001#64 }) =
      added (.ok (.bits (bits "1111111111110000000000000000000000000000000000000000000000000001"))) := by
  decide +kernel
/-- F1. -/
theorem test_encode64_F1 :
    produced (stepOn { WireRequest.blank 0b001#3 with fval := 0x40091EB851EB851F#64 }) =
      added (.ok (.bits (bits "0100000000001001000111101011100001010001111010111000010100011111"))) := by
  decide +kernel
/-- D15, the source's `"inf"`. -/
theorem test_decode32_D15 :
    produced (stepOn ((WireRequest.blank 0b010#3).withBits (bits "01111111100000000000000000000000"))) =
      added (.ok (.decoded ⟨0x7FF0000000000000#64, 0#1, 255#11, 0#52, .infinity, str "inf"⟩)) := by decide +kernel
/-- D22, a negative subnormal; the text is free. -/
theorem test_decode32_D22 :
    (decodedOf (stepOn ((WireRequest.blank 0b010#3).withBits (bits "10000000000000000000000000000001")))).map
      (fun d => (d.rval, d.sign, d.exp, d.man, d.cls)) =
      some (0xB6A0000000000000#64, 1#1, 0#11, 1#52, .subnormal) := by decide +kernel
/-- G21, a NaN kept, and its text. -/
theorem test_decode64_G21 :
    produced (stepOn ((WireRequest.blank 0b011#3).withBits
      (bits "1111111111110000000000000000000000000000000000000000000000000001"))) =
      added (.ok (.decoded ⟨0xFFF0000000000001#64, 1#1, 2047#11, 1#52, .nan, str "-nan"⟩)) := by decide +kernel
/-- L8, a well-formed binary32 string at width 64; L1 at width 32. -/
theorem test_decode_wrong_length_L1_L8 :
    produced (stepOn ((WireRequest.blank 0b011#3).withBits (bits "01111111100000000000000000000000"))) =
      added (.fail .invalidLength) ∧
    produced (stepOn ((WireRequest.blank 0b010#3).withBits (bits "0100000001001000111101011100001"))) =
      added (.fail .invalidLength) := by decide +kernel
/-- B3, uppercase prefix, mixed case. -/
theorem test_bitsFromHex32_B3 :
    produced (stepOn ((WireRequest.blank 0b100#3).withString (str "0X4048F5c3"))) =
      added (.ok (.bits (bits "01000000010010001111010111000011"))) := by decide +kernel
/-- B14, one too large at width 32. -/
theorem test_bitsFromHex32_B14 :
    produced (stepOn ((WireRequest.blank 0b100#3).withString (str "0x100000000"))) =
      added (.fail .invalidHex) := by decide +kernel
/-- B34, the same String at width 64. -/
theorem test_bitsFromHex64_B34 :
    produced (stepOn ((WireRequest.blank 0b101#3).withString (str "0x100000000"))) =
      added (.ok (.bits (bits "0000000000000000000000000000000100000000000000000000000000000000"))) := by
  decide +kernel
/-- B37, one too large at width 64. -/
theorem test_bitsFromHex64_B37 :
    produced (stepOn ((WireRequest.blank 0b101#3).withString (str "0x10000000000000000"))) =
      added (.fail .invalidHex) := by decide +kernel
/-- H9, a length that is no multiple of 4. -/
theorem test_hexFromBits_H9 :
    produced (stepOn ((WireRequest.blank 0b110#3).withBits (bits "10011"))) =
      added (.ok (.hex (str "0x13"))) := by decide +kernel
/-- H15, the empty BitString. -/
theorem test_hexFromBits_H15 :
    refusal (stepOn (WireRequest.blank 0b110#3)) = some .emptyBitString := by decide +kernel
/-- R26. -/
theorem test_reserved_refused : refusal (stepOn (WireRequest.blank 0b111#3)) = some .reservedOp := by decide +kernel
/-- Nothing presented. -/
theorem test_no_request : refusal (step State.reset) = some .noRequest := by decide +kernel
/-- The word the host's check stores, as the first request after reset. -/
theorem test_withFetchWord_encode64 :
    produced (step (State.reset.withFetchWord 8 0b001)) = some [.ok (.bits (List.replicate 64 false))] := by
  decide +kernel

/-! ## The tables of 95_test_vectors.md -/

/-- Section 2.1, E1 to E20. -/
theorem test_table_E1 : [(0x0000000000000000#64, 0x00000000#32), (0x8000000000000000#64, 0x80000000#32),
    (0x3FF0000000000000#64, 0x3F800000#32), (0xBFF0000000000000#64, 0xBF800000#32),
    (0x40091EB851EB851F#64, 0x4048F5C3#32), (0x3FB999999999999A#64, 0x3DCCCCCD#32),
    (0x3FE0000000000000#64, 0x3F000000#32), (0xC004000000000000#64, 0xC0200000#32),
    (0x3810000000000000#64, 0x00800000#32), (0x36A0000000000000#64, 0x00000001#32),
    (0x3690000000000000#64, 0x00000000#32), (0x3690000000000001#64, 0x00000001#32),
    (0x36A8000000000000#64, 0x00000002#32), (0x3680000000000000#64, 0x00000000#32),
    (0xB680000000000000#64, 0x80000000#32), (0x380FFFFFE0000000#64, 0x00800000#32),
    (0x380FFFFFDFFFFFFF#64, 0x007FFFFF#32), (0x3FF0000010000000#64, 0x3F800000#32),
    (0x3FF0000010000001#64, 0x3F800001#32), (0x3FF0000030000000#64, 0x3F800002#32)].all
    (fun p => narrow32 codecParams p.1 == p.2) = true := by decide +kernel
/-- Section 2.1, E21 to E39. -/
theorem test_table_E2 : [(0x3FFFFFFFF8000000#64, 0x40000000#32), (0x4170000010000000#64, 0x4B800000#32),
    (0x47EFFFFFE0000000#64, 0x7F7FFFFF#32), (0x47EFFFFFE8000000#64, 0x7F7FFFFF#32),
    (0x47EFFFFFEFFFFFFF#64, 0x7F7FFFFF#32), (0x47EFFFFFF0000000#64, 0x7F800000#32),
    (0xC7EFFFFFF0000000#64, 0xFF800000#32), (0x47F0000000000000#64, 0x7F800000#32),
    (0x47F074F8C4D3CD7B#64, 0x7F800000#32), (0x48078287F49C4A1D#64, 0x7F800000#32),
    (0xC8078287F49C4A1D#64, 0xFF800000#32), (0x7FEFFFFFFFFFFFFF#64, 0x7F800000#32),
    (0xFFEFFFFFFFFFFFFF#64, 0xFF800000#32), (0x7FF0000000000000#64, 0x7F800000#32),
    (0xFFF0000000000000#64, 0xFF800000#32), (0x0000000000000001#64, 0x00000000#32),
    (0x8000000000000001#64, 0x80000000#32), (0x000FFFFFFFFFFFFF#64, 0x00000000#32),
    (0x0010000000000000#64, 0x00000000#32)].all
    (fun p => narrow32 codecParams p.1 == p.2) = true := by decide +kernel
/-- Section 2.1, E40 to E45, the reference NaN. -/
theorem test_table_E3 : [(0x7FF8000000000000#64, 0x7FC00000#32), (0xFFF8000000000000#64, 0xFFC00000#32),
    (0x7FF0000000000001#64, 0x7FC00000#32), (0x7FF000C000000000#64, 0x7FC00600#32),
    (0x7FF4000000000000#64, 0x7FE00000#32), (0xFFFFFFFFFFFFFFFF#64, 0xFFFFFFFF#32)].all
    (fun p => narrow32 referenceParams p.1 == p.2) = true := by decide +kernel

/-- A row of 2.3: pattern, sign, exponent, mantissa, class, native float, reference text. -/
def row32 (w : Word32) (s : BitVec 1) (e : BitVec 11) (m : BitVec 52) (c : FpClass) (v : Word64) (t : String) : Bool :=
  decoded32 referenceParams w == ⟨v, s, e, m, c, str t⟩
/-- Section 2.3, D1 to D14. -/
theorem test_table_D1 : (row32 0x00000000 0 0 0x000000 .zero 0x0000000000000000 "0.0"
    && row32 0x80000000 1 0 0x000000 .zero 0x8000000000000000 "-0.0"
    && row32 0x3F800000 0 127 0x000000 .normal 0x3FF0000000000000 "1.0"
    && row32 0xBF800000 1 127 0x000000 .normal 0xBFF0000000000000 "-1.0"
    && row32 0x4048F5C3 0 128 0x48F5C3 .normal 0x40091EB860000000 "3.140000104904175"
    && row32 0x3DCCCCCD 0 123 0x4CCCCD .normal 0x3FB99999A0000000 "0.10000000149011612"
    && row32 0x00000001 0 0 0x000001 .subnormal 0x36A0000000000000 "1.401298464324817e-45"
    && row32 0x00000002 0 0 0x000002 .subnormal 0x36B0000000000000 "2.802596928649634e-45"
    && row32 0x00000003 0 0 0x000003 .subnormal 0x36B8000000000000 "4.203895392974451e-45"
    && row32 0x00400000 0 0 0x400000 .subnormal 0x3800000000000000 "5.877471754111438e-39"
    && row32 0x007FFFFF 0 0 0x7FFFFF .subnormal 0x380FFFFFC0000000 "1.1754942106924411e-38"
    && row32 0x00800000 0 1 0x000000 .normal 0x3810000000000000 "1.1754943508222875e-38"
    && row32 0x7F7FFFFF 0 254 0x7FFFFF .normal 0x47EFFFFFE0000000 "3.4028234663852886e+38"
    && row32 0xFF7FFFFF 1 254 0x7FFFFF .normal 0xC7EFFFFFE0000000 "-3.4028234663852886e+38") = true := by
  decide +kernel
/-- Section 2.3, D15 to D25. -/
theorem test_table_D2 : (row32 0x7F800000 0 255 0x000000 .infinity 0x7FF0000000000000 "inf"
    && row32 0xFF800000 1 255 0x000000 .infinity 0xFFF0000000000000 "-inf"
    && row32 0x7FC00000 0 255 0x400000 .nan 0x7FF8000000000000 "nan"
    && row32 0xFFC00000 1 255 0x400000 .nan 0xFFF8000000000000 "-nan"
    && row32 0x7F800001 0 255 0x000001 .nan 0x7FF0000020000000 "nan"
    && row32 0x7FFFFFFF 0 255 0x7FFFFF .nan 0x7FFFFFFFE0000000 "nan"
    && row32 0xFFFFFFFF 1 255 0x7FFFFF .nan 0xFFFFFFFFE0000000 "-nan"
    && row32 0x80000001 1 0 0x000001 .subnormal 0xB6A0000000000000 "-1.401298464324817e-45"
    && row32 0x4B800000 0 151 0x000000 .normal 0x4170000000000000 "16777216.0"
    && row32 0x3EAAAAAB 0 125 0x2AAAAB .normal 0x3FD5555560000000 "0.3333333432674408"
    && row32 0x42F6E979 0 133 0x76E979 .normal 0x405EDD2F20000000 "123.45600128173828") = true := by
  decide +kernel
/-- A row of 2.4. -/
def row64 (v : Word64) (s : BitVec 1) (e : BitVec 11) (m : BitVec 52) (c : FpClass) (t : String) : Bool :=
  decoded64 referenceParams v == ⟨v, s, e, m, c, str t⟩
/-- Section 2.4, G1 to G12. -/
theorem test_table_G1 : (row64 0x0000000000000000 0 0 0x0000000000000 .zero "0.0"
    && row64 0x8000000000000000 1 0 0x0000000000000 .zero "-0.0"
    && row64 0x40091EB851EB851F 0 1024 0x91EB851EB851F .normal "3.14"
    && row64 0x3FB999999999999A 0 1019 0x999999999999A .normal "0.1"
    && row64 0xC004000000000000 1 1024 0x4000000000000 .normal "-2.5"
    && row64 0x4059000000000000 0 1029 0x9000000000000 .normal "100.0"
    && row64 0x4341C37937E08000 0 1076 0x1C37937E08000 .normal "1e+16"
    && row64 0x437B69B4BA630F35 0 1079 0xB69B4BA630F35 .normal "1.2345678901234568e+17"
    && row64 0x4480F0CF064DD592 0 1096 0x0F0CF064DD592 .normal "1e+22"
    && row64 0x3F1A36E2EB1C432D 0 1009 0xA36E2EB1C432D .normal "0.0001"
    && row64 0x3EE4F8B588E368F1 0 1006 0x4F8B588E368F1 .normal "1e-05"
    && row64 0x7E41EB2D66005835 0 2020 0x1EB2D66005835 .normal "1.5e+300") = true := by decide +kernel
/-- Section 2.4, G13 to G22. -/
theorem test_table_G2 : (row64 0x0000000000000001 0 0 0x0000000000001 .subnormal "5e-324"
    && row64 0x000FFFFFFFFFFFFF 0 0 0xFFFFFFFFFFFFF .subnormal "2.225073858507201e-308"
    && row64 0x0010000000000000 0 1 0x0000000000000 .normal "2.2250738585072014e-308"
    && row64 0x7FEFFFFFFFFFFFFF 0 2046 0xFFFFFFFFFFFFF .normal "1.7976931348623157e+308"
    && row64 0xFFEFFFFFFFFFFFFF 1 2046 0xFFFFFFFFFFFFF .normal "-1.7976931348623157e+308"
    && row64 0x7FF0000000000000 0 2047 0x0000000000000 .infinity "inf"
    && row64 0xFFF0000000000000 1 2047 0x0000000000000 .infinity "-inf"
    && row64 0x7FF8000000000000 0 2047 0x8000000000000 .nan "nan"
    && row64 0xFFF0000000000001 1 2047 0x0000000000001 .nan "-nan"
    && row64 0x0000000100000000 0 0 0x0000100000000 .subnormal "2.121995791e-314") = true := by decide +kernel
/-- Section 2.5, X1 to X7. -/
theorem test_table_X : pack32 0#1 0b10000000#8 0b10010001111010111000011#23 = 0x4048F5C3#32
    ∧ sign32 0xFFFFFFFF#32 = 1#1 ∧ exp32 0xFFFFFFFF#32 = 0xFF#8 ∧ man32 0xFFFFFFFF#32 = 0x7FFFFF#23
    ∧ exp32 0x00800000#32 = 1#8 ∧ man32 0x00800000#32 = 0#23 ∧ exp32 0x00400000#32 = 0#8
    ∧ man32 0x00400000#32 = 0x400000#23 ∧ exp64 0x0010000000000000#64 = 1#11 ∧ man64 0x0010000000000000#64 = 0#52
    ∧ pack32 1#1 0xFF#8 0#23 = 0xFF800000#32 ∧ inf32 1#1 = 0xFF800000#32 := by decide +kernel
/-- Section 2.5, X8, X9, X10. -/
theorem test_table_X_classes : classify 0xFF#8 0#23 = .infinity ∧ classify 0xFF#8 1#23 = .nan
    ∧ classify 0#8 0#23 = .zero ∧ classify 0#8 1#23 = .subnormal ∧ classify 1#8 0#23 = .normal
    ∧ classify 0xFE#8 0x7FFFFF#23 = .normal ∧ classify 0x7FF#11 (BitVec.twoPow 52 51) = .nan
    ∧ classify 0x7FE#11 0#52 = .normal ∧ classify 0xFF#11 0#52 = .normal ∧ zero32 1#1 = 0x80000000#32
    ∧ inf32 0#1 = 0x7F800000#32 ∧ inf64 1#1 = 0xFFF0000000000000#64 ∧ nan32 0#1 0x400000#23 = 0x7FC00000#32 := by
  decide +kernel
/-- Section 2.6, B2 to B13: value, and B15 to B29 but for those tested above: failure at width 32. -/
theorem test_table_B : ["4048F5C3"].all (fun h => hexParseBelow 32 (str h) == some 0x4048F5C3)
    && ["0x0", "0", "00", "0x00000000000"].all (fun h => hexParseBelow 32 (str h) == some 0)
    && ["0X1f"].all (fun h => hexParseBelow 32 (str h) == some 31)
    && ["ffffffff", "0xFfFfFfFf", "0x00000000ffffffff"].all (fun h => hexParseBelow 32 (str h) == some 0xFFFFFFFF)
    && ["0x0100000000", "", "0x", "0X", "0xg1", "-1", "+1", " 1f", "1f ", "1_0", "0x0x1", "x1", "00x1", "1.0", "0x 1"].all
      (fun h => hexParseBelow 32 (str h) == none)
    && ["0xffffffffffffffff", "0x00ffffffffffffffff"].all (fun h => hexParseBelow 64 (str h) == some (2 ^ 64 - 1))
    && ["FFFFFFFFFFFFFFFFF", ""].all (fun h => hexParseBelow 64 (str h) == none) = true := by decide +kernel
/-- Section 2.6, H2 to H14: text and integer. -/
theorem test_table_H : hexDigits (uint (bits "00000000000000000000000000000000")) = str "0"
    ∧ hexDigits (uint (bits "01")) = str "1" ∧ hexDigits (uint (bits "00001111")) = str "f"
    ∧ hexDigits (uint (true :: List.replicate 31 false)) = str "80000000"
    ∧ hexDigits (uint (true :: List.replicate 64 false)) = str "10000000000000000"
    ∧ hexDigits (uint (List.replicate 255 true)) = 0x37#8 :: List.replicate 63 0x66#8 := by decide +kernel
/-- Section 2.8, and the ends of the format. -/
theorem test_parseRef : parseRef (str "3.14") = some 0x40091EB851EB851F#64 ∧ parseRef (str "1e39") = none
    ∧ parseRef (str "1e+39") = some 0x48078287F49C4A1D#64 ∧ parseRef (str "1e+400") = some 0x7FF0000000000000#64
    ∧ parseRef (str "-1e-400") = some 0x8000000000000000#64 ∧ parseRef (str "00.10") = some 0x3FB999999999999A#64
    ∧ parseRef (str "-nan") = some 0xFFF8000000000000#64 := by decide +kernel
/-- R27, R22: the wire form of a failure and of a result. -/
theorem test_wire_response : (Response.fail .invalidHex).toWire = some ⟨0b10#2, none, none, none, none, none, none, none⟩
    ∧ (Response.ok (.hex (str "0x1"))).toWire =
      some ⟨0b00#2, none, none, none, none, none, none, some ⟨3#8, [0x30#8, 0x78#8, 0x31#8]⟩⟩ := by decide +kernel

/-! ## Witnesses: concrete inputs that meet the hypotheses of each obligation, at the ends of each range -/

/-- A request for each code, every other field set. -/
def req (op : BitVec 3) : WireRequest :=
  { op := op, fval := 0x8000000000000000#64, bsLen := 255#8, bs := 0#255, hxLen := 255#8, hx := 0#2040 }

/-- A lawful instantiation. -/
def someParams : Params := paramsOfFree (fun _ => 0) (fun _ => 0) (fun _ => [])

/-- A state with a response and a request. -/
def someState : State := { requests := [req 0b000#3], responses := [.ok (.bits (List.replicate 32 true))] }

theorem witness_AnyOperationMayBeFirstAfterReset :
    (Instr.hexFromBits (List.replicate 255 false)).wellFormed = true ∧
    respond codecParams (.hexFromBits (List.replicate 255 false)) = some (.ok (.hex (str "0x0"))) ∧
    (Instr.decode32 []).wellFormed = true ∧ respond codecParams (.decode32 []) = some (.fail .invalidLength) := by
  decide +kernel

theorem witness_StepPerformsTheDecodedRequest :
    decode (req 0b001#3) = .ok (.encode64 0x8000000000000000#64) := by decide +kernel

theorem witness_StepRefusesReservedCodeAndEmptyPort : (req 0b111#3).op = 0b111#3 := by rfl

theorem witness_CodeSelectsOperationAndAssemblesOperand :
    (∀ op : BitVec 3, (req op).op = op) ∧ 0 < (req 0b010#3).bsLen.toNat ∧ 254 < (req 0b110#3).bsLen.toNat ∧
    0 < (req 0b100#3).hxLen.toNat ∧ 254 < (req 0b101#3).hxLen.toNat := ⟨fun _ => rfl, by decide, by decide, by decide, by decide⟩

theorem witness_EveryOtherCodeDecodesWellFormed : (req 0b000#3).op ≠ 0b111#3 ∧ (req 0b110#3).op ≠ 0b111#3 := by
  decide +kernel

theorem witness_DecodeOfEncodeIsTheOperation :
    (Instr.decode32 (List.replicate 255 true)).wellFormed = true ∧ (Instr.decode64 []).wellFormed = true ∧
    (Instr.bitsFromHex32 (List.replicate 255 0xFF#8)).wellFormed = true ∧ (Instr.bitsFromHex64 []).wellFormed = true ∧
    (Instr.hexFromBits (List.replicate 255 true)).wellFormed = true ∧
    (Instr.encode32 0xFFFFFFFFFFFFFFFF#64).wellFormed = true ∧ (Instr.encode64 0#64).wellFormed = true := by
  decide +kernel

/-- Two requests that differ only in elements that are not read. -/
theorem witness_DecodeReadsOnlyTheFieldsOfItsRow :
    (∃ r r' : WireRequest, r ≠ r' ∧ r.op = r'.op ∧ r.op = 0b000#3 ∧ r.fval = r'.fval) ∧
    (∃ r r' : WireRequest, r ≠ r' ∧ r.op = r'.op ∧ r.op = 0b110#3 ∧ r.bsLen = r'.bsLen ∧
      ∀ i, i < r.bsLen.toNat → r.bs.getLsbD i = r'.bs.getLsbD i) ∧
    ∃ r r' : WireRequest, r ≠ r' ∧ r.op = r'.op ∧ r.op = 0b100#3 ∧ r.hxLen = r'.hxLen ∧
      ∀ i, i < r.hxLen.toNat → r.hx.extractLsb' (8 * i) 8 = r'.hx.extractLsb' (8 * i) 8 :=
  ⟨⟨WireRequest.blank 0b000#3, { WireRequest.blank 0b000#3 with bsLen := 5 }, by decide +kernel, rfl, rfl, rfl⟩,
   ⟨{ WireRequest.blank 0b110#3 with bsLen := 2, bs := 2 }, { WireRequest.blank 0b110#3 with bsLen := 2, bs := 6 },
     by decide +kernel, rfl, rfl, rfl, by decide +kernel⟩,
   ⟨{ WireRequest.blank 0b100#3 with hxLen := 1, hx := 0x30 }, { WireRequest.blank 0b100#3 with hxLen := 1, hx := 0x130 },
     by decide +kernel, rfl, rfl, rfl, by decide +kernel⟩⟩

theorem witness_StoredRequestIsPerformedNext :
    (Instr.bitsFromHex64 (List.replicate 255 0x66#8)).wellFormed = true := by decide +kernel

theorem witness_BitStringsAreMostSignificantFirst :
    (0 : Nat) < 1 ∧ (63 : Nat) < 64 ∧ (List.replicate 64 true : BitString).length = 64 ∧ ([] : BitString).length = 0 := by
  decide

theorem witness_EncodesAreTotalAndReadOnlyFval :
    (req 0b000#3).op = 0b000#3 ∧ (req 0b000#3).fval = 0x8000000000000000#64 ∧ (req 0b001#3).op = 0b001#3 ∧
    (req 0b001#3).fval = 0x8000000000000000#64 := by decide +kernel

theorem witness_Encode32OfZeroKeepsTheSign :
    (0x8000000000000000#64).toNat % 2 ^ 63 = 0 ∧ (0#64).toNat % 2 ^ 63 = 0 := by decide

theorem witness_Encode32OverflowsToSignedInfinityExactly :
    (0x47EFFFFFF0000000 ≤ (0xC7EFFFFFF0000000#64).toNat % 2 ^ 63 ∧
      (0xC7EFFFFFF0000000#64).toNat % 2 ^ 63 ≤ 0x7FF0000000000000) ∧
    (0x47EFFFFFF0000000 ≤ (0x7FF0000000000000#64).toNat % 2 ^ 63 ∧
      (0x7FF0000000000000#64).toNat % 2 ^ 63 ≤ 0x7FF0000000000000) ∧
    (0x47EFFFFFEFFFFFFF#64).toNat % 2 ^ 63 < 0x47EFFFFFF0000000 := by decide

/-- The largest operand below the threshold, and the pattern of one; and a tie: two binary32 values equally near. -/
theorem witness_Encode32RoundsToNearestTiesToEven :
    (∃ x, (0x47EFFFFFEFFFFFFF#64).toNat % 2 ^ 63 < 0x47EFFFFFF0000000 ∧ (val64 0x47EFFFFFEFFFFFFF#64).toRat = some x) ∧
    (val64 0x3FF0000010000000#64).toRat = some (1 + 2 ^ (-24 : ℤ)) ∧ (val32 0x3F800000#32).toRat = some 1 ∧
    (val32 0x3F800001#32).toRat = some (1 + 2 ^ (-23 : ℤ)) := by
  refine ⟨⟨_, by decide, toRat_val64 _ (by decide)⟩, ?_, ?_, ?_⟩
  · have h : val64 0x3FF0000010000000#64 = .finite false 4503599895805952 (-52) := by decide +kernel
    rw [h]; norm_num [Value.toRat]
  · have h : val32 0x3F800000#32 = .finite false 8388608 (-23) := by decide +kernel
    rw [h]; norm_num [Value.toRat]
  · have h : val32 0x3F800001#32 = .finite false 8388609 (-23) := by decide +kernel
    rw [h]; norm_num [Value.toRat]

theorem witness_Encode32OfNanIsNanOfTheSameSign :
    0x7FF0000000000000 < (0x7FF0000000000001#64).toNat % 2 ^ 63 ∧
    0x7FF0000000000000 < (0xFFFFFFFFFFFFFFFF#64).toNat % 2 ^ 63 := by decide

theorem witness_InvalidLengthIsRaisedExactlyByDecodesOfWrongWidth :
    (List.replicate 31 false : BitString).length ≠ 32 ∧ (List.replicate 33 false : BitString).length ≠ 32 ∧
    (List.replicate 63 true : BitString).length ≠ 64 ∧ (List.replicate 65 true : BitString).length ≠ 64 ∧
    AnswersWith (.decode64 []) State.reset (.fail .invalidLength) := ⟨by decide, by decide, by decide, by decide, rfl⟩

/-- A pattern for each class clause. -/
theorem witness_Decode32ReportsFieldsAndClass :
    ((toBitString 0x7F800000#32).length = 32 ∧ class32 0x7F800000#32 = .infinity) ∧ class32 0x7F800001#32 = .nan ∧
    class32 0x80000000#32 = .zero ∧ class32 0x007FFFFF#32 = .subnormal ∧ class32 0x00800000#32 = .normal ∧
    class32 0x7F7FFFFF#32 = .normal := by decide +kernel

theorem witness_Decode32DenotesTheSameValue :
    (toBitString 0xFF800000#32).length = 32 ∧ class32 (toWord 32 (toBitString 0xFF800000#32)) ≠ .nan ∧
    class32 (toWord 32 (toBitString 0xFF800000#32)) = .infinity ∧
    class32 (toWord 32 (toBitString 0x00000001#32)) ≠ .nan := by decide +kernel

theorem witness_Decode32OfNanIsNanOfTheSameSign :
    class32 0x7F800001#32 = .nan ∧ class32 0xFFFFFFFF#32 = .nan := by decide

theorem witness_Decode64ReturnsThePattern :
    ((toBitString 0x7FF0000000000000#64).length = 64 ∧ class64 0x7FF0000000000000#64 = .infinity) ∧
    class64 0x7FF0000000000001#64 = .nan ∧ class64 0x8000000000000000#64 = .zero ∧
    class64 0x000FFFFFFFFFFFFF#64 = .subnormal ∧ class64 0x0010000000000000#64 = .normal ∧
    class64 0x7FEFFFFFFFFFFFFF#64 = .normal := by decide +kernel

theorem witness_ZerosAndNansHaveTheirTexts :
    0x7FF0000000000000 < (0xFFF0000000000001#64).toNat % 2 ^ 63 ∧
    0x7FF0000000000000 < (0x7FFFFFFFFFFFFFFF#64).toNat % 2 ^ 63 := by decide

/-- A finite value, a NaN of the one mantissa that is read back, and a NaN of another. -/
theorem witness_DecodedTextReadsBack :
    (∃ d, AnswersWith (.decode64 (toBitString 1#64)) someState (.ok (.decoded d)) ∧ class64 d.rval ≠ .nan) ∧
    (∃ d, AnswersWith (.decode64 (toBitString 0xFFF8000000000000#64)) someState (.ok (.decoded d)) ∧
      man64 d.rval = 0x8000000000000#52) ∧
    ∃ d, AnswersWith (.decode32 (toBitString 0x7F800001#32)) someState (.ok (.decoded d)) ∧ d.cls = .nan :=
  ⟨⟨decoded64 codecParams 1#64, rfl, by decide⟩, ⟨decoded64 codecParams 0xFFF8000000000000#64, rfl, by decide⟩,
   ⟨decoded32 codecParams 0x7F800001#32, rfl, by decide⟩⟩

theorem witness_DecodedTextHoldsOnlyItsGlyphs :
    ∃ d, AnswersWith (.decode32 (toBitString 0xFF7FFFFF#32)) someState (.ok (.decoded d)) :=
  ⟨decoded32 codecParams 0xFF7FFFFF#32, rfl⟩

theorem witness_ReferenceNanMapsAreAsTheRulesGiveThem : (0 : Nat) < 22 ∧ (21 : Nat) < 22 ∧ (1#23 : BitVec 23) ≠ 0 := by
  decide

theorem witness_FreeParametersAreExactlyTheLawfulOnes : LawfulParams someParams where
  nanNarrow_ne_zero := fun _ _ => nonZero_ne (n := 23) (by decide) 0
  nanWiden_ne_zero := fun _ _ => nonZero_ne (n := 52) (by decide) 0
  text_inf := rfl
  text_neg_inf := rfl
  text_zero := rfl
  text_neg_zero := rfl
  text_nan := fun d h => by simp only [someParams, paramsOfFree, fixedTextOr, h, sign64_eq_one_iff]
  text_finite := fun d h => by
    have e : someParams.textRender d = readableText d [] := by
      rcases h with h | h <;> simp only [someParams, paramsOfFree, fixedTextOr, h]
    rw [e]; exact readableText_reads d h []

/-- One and minus zero, which binary32 has; 1 + 2^-24, which lies between two neighbouring binary32 values
(`witness_Encode32RoundsToNearestTiesToEven`), is lost. -/
theorem witness_Decode32OfEncode32IsExactOnBinary32Values :
    (∃ x, (val64 0x3FF0000000000000#64).toRat = some x) ∧
    (val64 0x8000000000000000#64).toRat = some (-1 * 0 * 2 ^ (-1074 : ℤ)) ∧
    (val64 0x3FF0000010000000#64).toRat = some (1 + 2 ^ (-24 : ℤ)) ∧
    widen32 codecParams (narrow32 codecParams 0x3FF0000000000000#64) = 0x3FF0000000000000#64 ∧
    widen32 codecParams (narrow32 codecParams 0x3FF0000010000000#64) ≠ 0x3FF0000010000000#64 := by
  refine ⟨⟨_, toRat_val64 _ (by decide)⟩, ?_, ?_, by decide +kernel, by decide +kernel⟩
  · have h : val64 0x8000000000000000#64 = .finite true 0 (-1074) := by decide +kernel
    rw [h]; norm_num [Value.toRat]
  · have h : val64 0x3FF0000010000000#64 = .finite false 4503599895805952 (-52) := by decide +kernel
    rw [h]; norm_num [Value.toRat]

theorem witness_Encode32OfDecode32IsTheBitString :
    (toBitString 0x7F7FFFFF#32).length = 32 ∧ class32 (toWord 32 (toBitString 0x7F7FFFFF#32)) ≠ .nan ∧
    class32 (toWord 32 (toBitString 0xFF800000#32)) ≠ .nan := by decide +kernel

theorem witness_NansKeepClassAndSignAtWidth32 :
    class64 0xFFF0000000000001#64 = .nan ∧ class32 0x7F800001#32 = .nan ∧ class32 0xFFC00000#32 = .nan := by decide

theorem witness_HexFromBitsRendersTheInteger : ([false] : BitString) ≠ [] ∧ List.replicate 255 true ≠ [] := by decide

theorem witness_BitsFromHexPadsTheValue :
    DenotesHex (str "0X00fFfFfFfF") (2 ^ 32 - 1) ∧ DenotesHex (str "0") 0 ∧
    DenotesHex (str "FFFFFFFFFFFFFFFF") (2 ^ 64 - 1) :=
  ⟨(hexParse_iff _ _).1 (by decide +kernel), (hexParse_iff _ _).1 (by decide +kernel), (hexParse_iff _ _).1 (by decide +kernel)⟩

theorem witness_InvalidHexIsRaisedExactlyByBadOrLargeNumerals :
    AnswersWith (.bitsFromHex32 (str "0x100000000")) someState (.fail .invalidHex) ∧
    AnswersWith (.bitsFromHex64 []) someState (.fail .invalidHex) :=
  ⟨(answersWith_bitsFromHex32_fail _ _).2 (by decide +kernel), (answersWith_bitsFromHex64_fail _ _).2 (by decide +kernel)⟩

theorem witness_RangeCheckCountsSignificantDigits :
    [0x30#8, 0x46#8] ≠ [] ∧ ∀ c ∈ [0x30#8, 0x46#8], ∃ v, HexGlyph c v := by
  refine ⟨by decide, fun c hc => ?_⟩
  simp only [List.mem_cons, List.not_mem_nil, or_false] at hc
  rcases hc with rfl | rfl
  · exact ⟨0, by unfold HexGlyph; decide⟩
  · exact ⟨15, by unfold HexGlyph; decide⟩

theorem witness_BitsFromHexOfHexFromBitsIsTheNumeral :
    List.replicate 32 true ≠ [] ∧ uint (List.replicate 32 true) < 2 ^ 32 ∧
    uint (false :: List.replicate 64 true) < 2 ^ 64 ∧ (List.replicate 64 true : BitString).length = 64 := by decide +kernel

theorem witness_ResponseIsAFunctionOfTheRequestAlone :
    decode (req 0b000#3) = decode { req 0b000#3 with hxLen := 0 } ∧ Answerable (req 0b000#3) ∧ Answerable (req 0b110#3) := by
  unfold Answerable; decide +kernel

theorem witness_EveryOperationAddsExactlyOneResponse :
    exec (.decode32 []) someState = .next (someState.reply (.fail .invalidLength)) ∧
    Instr.hexFromBits [false] ≠ .hexFromBits [] := ⟨rfl, by decide⟩

theorem witness_FailureTableIsComplete :
    AnswersWith (.encode64 0#64) someState (.ok (.bits (toBitString 0#64))) ∧ (∀ k, ¬ FailureCause (.encode64 0#64) k) ∧
    AnswersWith (.decode32 []) someState (.fail .invalidLength) ∧ FailureCause (.decode32 []) .invalidLength :=
  ⟨rfl, fun k => by cases k <;> exact id, rfl, by simp [FailureCause]⟩

theorem witness_SameRequestAgainGivesSameResponse : Answerable (req 0b010#3) := by unfold Answerable; decide +kernel

theorem witness_RunProducesTheListOfResponses : ∀ r ∈ [req 0b000#3, req 0b100#3, req 0b110#3], Answerable r := by
  unfold Answerable; decide +kernel

theorem witness_OrderOfRequestsDoesNotMatter :
    [req 0b000#3, req 0b100#3].Perm [req 0b100#3, req 0b000#3] ∧ ∀ r ∈ [req 0b000#3, req 0b100#3], Answerable r :=
  ⟨List.Perm.swap _ _ [], by unfold Answerable; decide +kernel⟩

theorem witness_StepKeepsResponsesLegal : someState.Inv ∧ ∃ t, step someState = .next t :=
  ⟨fun r h => by rw [List.mem_singleton.1 h]; exact Or.inl rfl, _,
    step_of_respond (i := .encode32 0x8000000000000000#64) _ _ _ (by decide +kernel) rfl⟩

theorem witness_ResponsesOnTheWire :
    AnswersWith (.encode64 0#64) someState (.ok (.bits (toBitString 0#64))) ∧
    AnswersWith (.encode32 0#64) someState (.ok (.bits (toBitString 0#32))) ∧
    (opCode (.encode64 0#64) = 0b001#3 ∧ opCode (.encode32 0#64) = 0b000#3 ∧ opCode (.bitsFromHex32 []) = 0b100#3) ∧
    (Decoded.mk 0 0 0 0 .zero (List.replicate 255 0x30#8)).text.length ≤ 255 :=
  ⟨rfl, (answersWith_iff _ _ _).2 (by decide +kernel), ⟨rfl, rfl, rfl⟩, by decide +kernel⟩

theorem witness_HexStringsFitTheWire :
    (Instr.hexFromBits (List.replicate 255 true)).wellFormed = true ∧
    ∃ h, AnswersWith (.hexFromBits (List.replicate 255 true)) someState (.ok (.hex h)) :=
  ⟨by decide +kernel, hexPrefix ++ hexDigits (uint (List.replicate 255 true)),
    (answersWith_iff _ _ _).2 (by rw [respond, if_neg (by decide +kernel)])⟩

end Sys2Proof.Tests
end

section
/-! PROOF. ENCODE32 rounds to the nearest binary32 value, ties to the even mantissa (R6, R36, R39). The laws of
`Laws/Round.lean` and `Laws/Narrow.lean` are about magnitudes; here they are carried over to signed values: a value of
the other sign is never nearer than zero, the magnitude whose pattern is 0. -/

namespace Sys2Proof.Machine

/-- The factor a sign bit contributes to a value (R33). -/
def signFactor (s : BitVec 1) : ℚ := if s = 1 then -1 else 1

theorem abs_signFactor (s : BitVec 1) : |signFactor s| = 1 := by
  unfold signFactor; split <;> norm_num

/-- The factors of two signs are equal or opposite. -/
theorem signFactor_eq_or_eq_neg (t s : BitVec 1) : signFactor t = signFactor s ∨ signFactor t = -signFactor s :=
  abs_eq_abs.1 ((abs_signFactor t).trans (abs_signFactor s).symm)

/-- A binary64 pattern below the all-ones exponent denotes its signed magnitude. -/
theorem toRat_val64_signed (v : Word64) (h : v.toNat % 2 ^ 63 < 0x7FF0000000000000) :
    (val64 v).toRat = some (signFactor (sign64 v) * magVal binary64 (v.toNat % 2 ^ 63)) := toRat_val64 v h

/-- A binary32 pattern below the all-ones exponent denotes its signed magnitude. -/
theorem toRat_val32_signed (w : Word32) (h : w.toNat % 2 ^ 31 < 0x7F800000) :
    (val32 w).toRat = some (signFactor (sign32 w) * magVal binary32 (w.toNat % 2 ^ 31)) := toRat_val32 w h

/-- Every rational that a binary32 pattern denotes is its signed magnitude. -/
theorem eq_of_toRat_val32 {u : Word32} {z : ℚ} (h : (val32 u).toRat = some z) :
    z = signFactor (sign32 u) * magVal binary32 (u.toNat % 2 ^ 31) := by
  have hfin : u.toNat % 2 ^ 31 < 0x7F800000 := by
    by_contra hge
    rw [toRat_val32_none u (not_lt.1 hge)] at h
    cases h
  rw [toRat_val32_signed u hfin] at h
  exact (Option.some.inj h).symm

/-- Among all binary32 magnitudes that of the pattern `r` is nearest to `X`, and `r` is even when another is
equally near. -/
def NearestMagnitude (r : Nat) (X : ℚ) : Prop :=
  ∀ j, |magVal binary32 r - X| ≤ |magVal binary32 j - X| ∧
    (|magVal binary32 r - X| = |magVal binary32 j - X| → j ≠ r → r % 2 = 0)

/-- Below the overflow threshold narrowing keeps the sign and takes the nearest magnitude (R36). -/
theorem narrow32_nearestMagnitude (P : Params) (v : Word64) (h : v.toNat % 2 ^ 63 < 0x47EFFFFFF0000000) :
    sign32 (narrow32 P v) = sign64 v ∧ (narrow32 P v).toNat % 2 ^ 31 < 0x7F800000 ∧
      NearestMagnitude ((narrow32 P v).toNat % 2 ^ 31) (magVal binary64 (v.toNat % 2 ^ 63)) := by
  obtain ⟨r, hr, hw, hnear⟩ := (narrow32_cases P v (by omega)).1 h
  have hmag : (narrow32 P v).toNat % 2 ^ 31 = r := by omega
  refine ⟨BitVec.eq_of_toNat_eq ?_, hmag ▸ hr, hmag ▸ hnear⟩
  rw [toNat_sign32]; omega

/-- Two values of one sign are as far apart as their magnitudes. -/
theorem abs_signFactor_mul_sub (s : BitVec 1) (a b : ℚ) : |signFactor s * a - signFactor s * b| = |a - b| := by
  rw [← mul_sub, abs_mul, abs_signFactor, one_mul]

/-- A value is as far from one of the other sign as their magnitudes add up to. -/
theorem abs_neg_signFactor_mul_sub (s : BitVec 1) {a b : ℚ} (ha : 0 ≤ a) (hb : 0 ≤ b) :
    |-signFactor s * a - signFactor s * b| = a + b := by
  rw [show -signFactor s * a - signFactor s * b = -(signFactor s * (a + b)) by ring, abs_neg, abs_mul, abs_signFactor,
    one_mul, abs_of_nonneg (add_nonneg ha hb)]

/-- The nearest magnitude, given the sign of `X`, is nearest among the values of both signs, ties to even. -/
theorem NearestMagnitude.signed {r : Nat} {X : ℚ} (hr : NearestMagnitude r X) (hX : 0 ≤ X) (s t : BitVec 1) (j : Nat) :
    |signFactor s * magVal binary32 r - signFactor s * X| ≤ |signFactor t * magVal binary32 j - signFactor s * X| ∧
    (|signFactor s * magVal binary32 r - signFactor s * X| = |signFactor t * magVal binary32 j - signFactor s * X| →
      signFactor t * magVal binary32 j ≠ signFactor s * magVal binary32 r → r % 2 = 0) := by
  rw [abs_signFactor_mul_sub]
  rcases signFactor_eq_or_eq_neg t s with ht | ht
  · rw [ht, abs_signFactor_mul_sub]
    exact ⟨(hr j).1, fun heq hne => (hr j).2 heq fun hj => hne (by rw [hj])⟩
  · have hM := magVal_nonneg binary32 j
    obtain ⟨hle, htie⟩ := hr 0
    rw [magVal_zero, zero_sub, abs_neg, abs_of_nonneg hX] at hle htie
    rw [ht, abs_neg_signFactor_mul_sub s hM hX]
    refine ⟨by linarith, fun heq _ => ?_⟩
    by_cases h0 : r = 0
    · rw [h0]
    · exact htie (by linarith) (Ne.symm h0)

/-- Settles O18: narrowing takes the nearest magnitude, which is nearest among the signed values too. -/
theorem encode32RoundsToNearestTiesToEven : Obligations.Encode32RoundsToNearestTiesToEven := by
  intro v s x hlt hx
  obtain ⟨hsign, hfin, hnear⟩ := narrow32_nearestMagnitude codecParams v hlt
  obtain rfl := Option.some.inj ((toRat_val64_signed v (by omega)).symm.trans hx)
  refine ⟨narrow32 codecParams v, _, answersWith_encode32 v s, hsign, toRat_val32_signed _ hfin, fun u z hz => ?_⟩
  obtain ⟨hle, htie⟩ := hnear.signed (magVal_nonneg binary64 _) (sign64 v) (sign32 u) (u.toNat % 2 ^ 31)
  rw [eq_of_toRat_val32 hz, hsign]
  refine ⟨hle, fun heq hne => ?_⟩
  have heven := htie heq hne
  rw [toNat_man32]; omega

end Sys2Proof.Machine
end

section
/-! PROOF. The state (10_state.md): what an operation adds to it, what it leaves, and what a run makes of it (R7, R9,
R75). Everything rests on two inversions, of `exec` and of `step`, and on the response of a request, which reads no
state. -/

namespace Sys2Proof.Machine

/-- Serving a request that decodes performs its operation with the port advanced. -/
theorem serve_of_decode {r : WireRequest} {i : Instr} (h : decode r = .ok i) (rest : List WireRequest) (s : State) :
    serve r rest s = exec i (s.withRequests rest) := by
  simp only [serve, h]

/-- Serving a request that the decoder refuses is refused (R26). -/
theorem serve_of_decode_error {r : WireRequest} {e : DecodeError} (h : decode r = .error e) (rest : List WireRequest)
    (s : State) : serve r rest s = .refused .reservedOp := by
  cases e
  simp only [serve, h]

/-- All that `exec` can do when it answers a next state: it adds the response of the operation. -/
theorem exec_eq_next_iff (i : Instr) (s t : State) :
    exec i s = .next t ↔ ∃ a, respond codecParams i = some a ∧ t = s.reply a := by
  rw [exec_eq_respond]
  cases respond codecParams i with
  | none => simp
  | some a => simp [eq_comm]

/-- All that `step` can do when it answers a next state: it takes the request presented next, which decodes to an
operation with a response, and adds that response. -/
theorem step_eq_next_iff (s t : State) :
    step s = .next t ↔ ∃ r rest i a, s.requests = r :: rest ∧ decode r = .ok i ∧
      respond codecParams i = some a ∧ t = (s.withRequests rest).reply a := by
  unfold step
  cases s.requests with
  | nil => simp
  | cons r rest =>
    cases hd : decode r with
    | error e => simp [serve_of_decode_error hd, hd]
    | ok i => simp [serve_of_decode hd, exec_eq_next_iff, hd]

/-- Settles O2: `step` serves the request at the head, and serving a decoded request performs it. -/
theorem stepPerformsTheDecodedRequest : Obligations.StepPerformsTheDecodedRequest := by
  intro r rest rs i hi
  exact serve_of_decode hi rest ⟨r :: rest, rs⟩

/-- Settles O43: the frame is the inversion of `exec`; `respond` is defined for every other operation. -/
theorem everyOperationAddsExactlyOneResponse : Obligations.EveryOperationAddsExactlyOneResponse := by
  refine ⟨fun i s t h => ?_, fun i s hi => ?_⟩
  · obtain ⟨a, -, rfl⟩ := (exec_eq_next_iff i s t).1 h
    exact ⟨s.reply_requests a, a, s.reply_responses a⟩
  · have hsome : respond codecParams i ≠ none := mt (respond_eq_none_iff codecParams i).1 hi
    obtain ⟨a, ha⟩ := Option.ne_none_iff_exists'.1 hsome
    exact ⟨a, (answersWith_iff i s a).2 ha⟩

/-- The response of a request, `response = codec(request)` (R9): that of the operation it decodes to; none where the
request is refused. -/
def codecResponse (r : WireRequest) : Option Response := (decode r).toOption.bind (respond codecParams)

theorem codecResponse_of_decode {r : WireRequest} {i : Instr} (h : decode r = .ok i) :
    codecResponse r = respond codecParams i := by
  simp [codecResponse, h, Except.toOption]

/-- A request with a response decodes to an operation with that response. -/
theorem decode_of_codecResponse {r : WireRequest} {a : Response} (h : codecResponse r = some a) :
    ∃ i, decode r = .ok i ∧ respond codecParams i = some a := by
  cases hi : decode r with
  | error e => simp [codecResponse, hi, Except.toOption] at h
  | ok i => exact ⟨i, rfl, codecResponse_of_decode hi ▸ h⟩

/-- Every answerable request has a response (R75). -/
theorem exists_codecResponse_of_answerable {r : WireRequest} (h : Answerable r) : ∃ a, codecResponse r = some a := by
  obtain ⟨i, a, hi, ha⟩ := decode_answerable h
  exact ⟨a, (codecResponse_of_decode hi).trans ha⟩

/-- A step on a request with a response takes the request and adds the response, from any state. -/
theorem step_of_codecResponse {r : WireRequest} {a : Response} (h : codecResponse r = some a)
    (rest : List WireRequest) (rs : List Response) : step ⟨r :: rest, rs⟩ = .next ⟨rest, rs ++ [a]⟩ := by
  obtain ⟨i, hi, ha⟩ := decode_of_codecResponse h
  exact step_of_respond r rest rs hi ha

/-- Settles O42: the function is `codecResponse`, which sees a request only through `decode`. -/
theorem responseIsAFunctionOfTheRequestAlone : Obligations.ResponseIsAFunctionOfTheRequestAlone := by
  refine ⟨codecResponse, fun r r' h => ?_, fun r h => ?_, fun r a rest rs h => step_of_codecResponse h rest rs⟩
  · rw [codecResponse, codecResponse, h]
  · exact Option.isSome_iff_exists.2 (exists_codecResponse_of_answerable h)

/-- `codecResponse` made total; the value where there is no response is read by no run of answerable requests. -/
def codecResponseD (r : WireRequest) : Response := (codecResponse r).getD (.fail .invalidLength)

/-- A step on an answerable request adds its total response. -/
theorem step_of_answerable {r : WireRequest} (h : Answerable r) (rest : List WireRequest) (rs : List Response) :
    step ⟨r :: rest, rs⟩ = .next ⟨rest, rs ++ [codecResponseD r]⟩ := by
  obtain ⟨a, ha⟩ := exists_codecResponse_of_answerable h
  rw [step_of_codecResponse ha, codecResponseD, ha, Option.getD_some]

/-- A run of answerable requests takes them and adds their responses in order (R75). -/
theorem run_of_answerable (p rest : List WireRequest) (rs : List Response) (h : ∀ r ∈ p, Answerable r) :
    Sys2Proof.core.run p.length (State.mk (p ++ rest) rs) = .next (State.mk rest (rs ++ p.map codecResponseD)) := by
  induction p generalizing rs with
  | nil => simp [Host.Core.run]
  | cons r p ih =>
    obtain ⟨hr, hp⟩ := List.forall_mem_cons.1 h
    have hstep := step_of_answerable hr (p ++ rest) rs
    calc Sys2Proof.core.run (p.length + 1) (State.mk (r :: (p ++ rest)) rs)
        = Sys2Proof.core.run p.length (State.mk (p ++ rest) (rs ++ [codecResponseD r])) :=
          run_succ_next Sys2Proof.core p.length _ _ hstep
      _ = .next (State.mk rest (rs ++ [codecResponseD r] ++ p.map codecResponseD)) := ih _ hp
      _ = .next (State.mk rest (rs ++ (r :: p).map codecResponseD)) := by
          rw [List.map_cons, List.append_assoc, List.singleton_append]

/-- Settles O46, by induction on the list of requests (`run_of_answerable`). -/
theorem runProducesTheListOfResponses : Obligations.RunProducesTheListOfResponses :=
  ⟨codecResponseD, run_of_answerable⟩

end Sys2Proof.Machine
end

section
/-! PROOF. The text of a decode is read back by `PARSE_REF` (R47 to R50, R53 e): one lemma per fixed text, at both
signs, and the law of the readable text for the finite values that are not zero. -/

namespace Sys2Proof.Machine

/-- The texts of the infinities are read as the infinities (R47). -/
theorem parseRef_infinityText (s : BitVec 1) : parseRef (if s = 1 then txtNegInf else txtInf) = some (inf64 s) := by
  revert s; decide

/-- The texts of the zeros are read as the zeros (R48). -/
theorem parseRef_zeroText (s : BitVec 1) : parseRef (if s = 1 then txtNegZero else txtZero) = some (zero64 s) := by
  revert s; decide

/-- The texts of the NaNs are read as the NaNs of mantissa `1 ++ 0^51` (R49, R51). -/
theorem parseRef_nanText (s : BitVec 1) :
    parseRef (if s = 1 then txtNegNan else txtNan) = some (nan64 s 0x8000000000000#52) := by
  revert s; decide

/-- The infinity of a sign is the only pattern of its class (R35). -/
theorem eq_inf64_of_class {d : Word64} (h : class64 d = .infinity) : d = inf64 (sign64 d) := by
  rw [class64, classify] at h
  split_ifs at h with he hm
  rw [inf64, ← he, ← hm, pack64_fields]

/-- The zero of a sign is the only pattern of its class (R35). -/
theorem eq_zero64_of_class {d : Word64} (h : class64 d = .zero) : d = zero64 (sign64 d) := by
  rw [class64, classify] at h
  split_ifs at h with _ _ he hm
  conv_lhs => rw [← pack64_fields d, he, hm]
  rfl

/-- A NaN is the NaN of its sign and mantissa (R35). -/
theorem eq_nan64_of_class {d : Word64} (h : class64 d = .nan) : d = nan64 (sign64 d) (man64 d) := by
  rw [class64, classify] at h
  split_ifs at h with he
  rw [nan64, ← he, pack64_fields]

/-- `PARSE_REF` reads `t` with the class and sign of `d`, and as `d` itself unless `d` is a NaN whose mantissa is not
`1 ++ 0^51` (R53 e). -/
def ReadsBackAs (t : Str) (d : Word64) : Prop :=
  ∃ u, parseRef t = some u ∧ class64 u = class64 d ∧ sign64 u = sign64 d ∧
    (class64 d ≠ .nan ∨ man64 d = 0x8000000000000#52 → u = d)

theorem readsBackAs_of_parseRef {t : Str} {d : Word64} (h : parseRef t = some d) : ReadsBackAs t d :=
  ⟨d, h, rfl, rfl, fun _ => rfl⟩

/-- The text of a value reads back if its text as a finite value that is not zero does. -/
theorem readsBackAs_fixedTextOr (d : Word64) (t : Str)
    (ht : class64 d = .normal ∨ class64 d = .subnormal → parseRef t = some d) :
    ReadsBackAs (fixedTextOr d t) d := by
  unfold fixedTextOr
  cases hc : class64 d with
  | normal => exact readsBackAs_of_parseRef (ht (.inl hc))
  | subnormal => exact readsBackAs_of_parseRef (ht (.inr hc))
  | infinity =>
    have htext := parseRef_infinityText (sign64 d)
    rw [← eq_inf64_of_class hc] at htext
    exact readsBackAs_of_parseRef htext
  | zero =>
    have htext := parseRef_zeroText (sign64 d)
    rw [← eq_zero64_of_class hc] at htext
    exact readsBackAs_of_parseRef htext
  | nan =>
    refine ⟨nan64 (sign64 d) 0x8000000000000#52, parseRef_nanText _, ?_, sign64_pack64 _ _ _, ?_⟩
    · rw [hc, class64_nan64 _ _ (by decide)]
    · rintro (hne | hman)
      · exact absurd hc hne
      · rw [← hman, ← eq_nan64_of_class hc]

/-- The machine's text of any native value reads back, whatever the free text (R50). -/
theorem readsBackAs_textRender (d : Word64) : ReadsBackAs (codecParams.textRender d) d :=
  readsBackAs_fixedTextOr d _ fun h => (readableText_reads d h _).2

end Sys2Proof.Machine
end

section
/-! PROOF. The invariant of 10_state.md: every response produced is legal (R10, R28, R44, R45, R53, R55). A step adds
one response, that of an operation, so it is enough that every response of an operation is legal. -/

namespace Sys2Proof.Machine

/-- `NAN_WIDEN` of the machine is never zero (R45). -/
theorem codecParams_nanWiden_ne_zero (m : BitVec 23) : codecParams.nanWiden m ≠ 0 := nonZero_ne (by norm_num) _

/-- A decode is legal when its native float has the sign and the kind of the pattern and its text is the machine's. -/
theorem legal_decoded_of_fields {d : Decoded} (hsign : sign64 d.rval = d.sign)
    (hnan : class64 d.rval = .nan ↔ d.cls = .nan) (hinf : class64 d.rval = .infinity ↔ d.cls = .infinity)
    (hzero : class64 d.rval = .zero ↔ d.cls = .zero) (htext : d.text = codecParams.textRender d.rval) :
    (Response.ok (.decoded d)).Legal := by
  obtain ⟨u, hread, hclass, husign, heq⟩ := readsBackAs_textRender d.rval
  exact ⟨hsign, hnan, hinf, hzero, u, htext ▸ hread, hclass, husign, fun hne => heq (.inl (mt hnan.1 hne))⟩

theorem legal_decoded32 (w : Word32) : (Response.ok (.decoded (decoded32 codecParams w))).Legal := by
  obtain ⟨hnan, hinf, hzero⟩ := class64_widen32 codecParams codecParams_nanWiden_ne_zero w
  exact legal_decoded_of_fields (sign64_widen32 codecParams w) hnan hinf hzero rfl

theorem legal_decoded64 (d : Word64) : (Response.ok (.decoded (decoded64 codecParams d))).Legal :=
  legal_decoded_of_fields rfl .rfl .rfl .rfl rfl

/-- A HexString that an operation returns is `HEX_PREFIX` and `HEXDIGITS` of a natural (R54). -/
theorem respond_hex {P : Params} {i : Instr} {h : Str} (hr : respond P i = some (.ok (.hex h))) :
    ∃ n, h = hexPrefix ++ hexDigits n := by
  cases i with
  | hexFromBits b =>
    simp only [respond] at hr
    split at hr
    · cases hr
    · cases hr
      exact ⟨uint b, rfl⟩
  | encode32 v => cases hr
  | encode64 v => cases hr
  | decode32 b => simp only [respond] at hr; split at hr <;> cases hr
  | decode64 b => simp only [respond] at hr; split at hr <;> cases hr
  | bitsFromHex32 t => simp only [respond] at hr; split at hr <;> cases hr
  | bitsFromHex64 t => simp only [respond] at hr; split at hr <;> cases hr

/-- Every response of an operation is legal, by the kind of the response. -/
theorem legal_of_respond {i : Instr} {a : Response} (h : respond codecParams i = some a) : a.Legal := by
  cases a with
  | fail k => trivial
  | ok res =>
    cases res with
    | bits b => exact (respond_bits_length i b h).2.2
    | hex t =>
      obtain ⟨n, rfl⟩ := respond_hex h
      exact ⟨hexDigits n, n, rfl, hexDigits_numeral n⟩
    | decoded d =>
      obtain ⟨-, ⟨w, rfl⟩ | ⟨w, rfl⟩⟩ := respond_decoded i d h
      · exact legal_decoded32 w
      · exact legal_decoded64 w

/-- A legal response added to legal responses leaves them legal. -/
theorem State.Inv.reply {s : State} (hs : s.Inv) {a : Response} (ha : a.Legal) : (s.reply a).Inv := by
  intro r hr
  rw [State.reply_responses, List.mem_append, List.mem_singleton] at hr
  rcases hr with hr | rfl
  · exact hs r hr
  · exact ha

/-- Settles O48: the step adds one response, that of an operation, which is legal. -/
theorem stepKeepsResponsesLegal : Obligations.StepKeepsResponsesLegal := by
  intro s t hs hstep
  obtain ⟨r, rest, i, a, -, -, ha, rfl⟩ := (step_eq_next_iff s t).1 hstep
  have hport : (s.withRequests rest).Inv := hs
  exact hport.reply (legal_of_respond ha)

end Sys2Proof.Machine
end

section
/-! PROOF. BitStrings and words (00_scope.md 5.2, R18): the facts about `toBitString`, `toWord` and `uint` put together. -/

namespace Sys2Proof.Machine

/-- Settles O10: the two conversions are inverse because each keeps `uint`, which fixes a BitString of given length. -/
theorem bitStringsAreMostSignificantFirst : Obligations.BitStringsAreMostSignificantFirst := fun _ w =>
  ⟨toBitString_length w, toBitString_getElem? w, uint_toBitString w, toWord_toBitString w, toBitString_toWord⟩

end Sys2Proof.Machine
end

section
/-! PROOF. The order of requests (R20 a, e): a run pairs each request with its own response, whatever came before, so
another order of the requests is another order of the same pairs. -/

namespace Sys2Proof.Machine

/-- A run that serves all the answerable requests of a state leaves none, and has added their responses in order. -/
theorem run_all_of_answerable (p : List WireRequest) (rs : List Response) (h : ∀ r ∈ p, Answerable r) :
    Sys2Proof.core.run p.length (State.mk p rs) = .next (State.mk [] (rs ++ p.map codecResponseD)) := by
  simpa only [List.append_nil] using run_of_answerable p [] rs h

/-- Settles O47: the pairs of a run are its requests mapped by one function, and mapping keeps a permutation. -/
theorem orderOfRequestsDoesNotMatter : Obligations.OrderOfRequestsDoesNotMatter := by
  intro p q rs rs' hpq hp
  have hq : ∀ r ∈ q, Answerable r := fun r hr => hp r (hpq.mem_iff.2 hr)
  have hpairs : (p.zip (p.map codecResponseD)).Perm (q.zip (q.map codecResponseD)) := by
    rw [← List.map_prod_left_eq_zip, ← List.map_prod_left_eq_zip]
    exact hpq.map _
  exact ⟨p.map codecResponseD, q.map codecResponseD, run_all_of_answerable p rs hp, run_all_of_answerable q rs' hq,
    List.length_map _, List.length_map _, hpairs⟩

end Sys2Proof.Machine
end

section
/-! PROOF. Requests and the operations they select (30_encoding.md R21, R24, R25, R26): one equation of `decode` per
code, what the two operands of the wires are, and from these the statements about the decoder. -/

namespace Sys2Proof

/-! The operands of the wires (R25). -/

@[simp] theorem WireRequest.bitString_length (r : WireRequest) : r.bitString.length = r.bsLen.toNat := by
  simp [WireRequest.bitString]

@[simp] theorem WireRequest.string_length (r : WireRequest) : r.string.length = r.hxLen.toNat := by
  simp [WireRequest.string]

theorem WireRequest.bitString_getElem? (r : WireRequest) {i : Nat} (h : i < r.bsLen.toNat) :
    r.bitString[i]? = some (r.bs.getLsbD i) := by
  simp [WireRequest.bitString, h]

theorem WireRequest.string_getElem? (r : WireRequest) {i : Nat} (h : i < r.hxLen.toNat) :
    r.string[i]? = some (r.hx.extractLsb' (8 * i) 8) := by
  simp [WireRequest.string, WireRequest.hxAt, h]

/-- A length field has 8 bits (R21), so no BitString of the wires exceeds `LMAX`. -/
theorem WireRequest.bitString_length_le (r : WireRequest) : r.bitString.length ≤ Config.lMax := by
  rw [bitString_length]
  exact Nat.le_of_lt_succ r.bsLen.isLt

/-- A length field has 8 bits (R21), so no String of the wires exceeds `HMAX`. -/
theorem WireRequest.string_length_le (r : WireRequest) : r.string.length ≤ Config.hMax := by
  rw [string_length]
  exact Nat.le_of_lt_succ r.hxLen.isLt

/-- The BitString operand reads the wires below its length only (R25). -/
theorem WireRequest.bitString_congr {r r' : WireRequest} (hlen : r.bsLen = r'.bsLen)
    (hbs : ∀ i, i < r.bsLen.toNat → r.bs.getLsbD i = r'.bs.getLsbD i) : r.bitString = r'.bitString := by
  unfold WireRequest.bitString
  rw [← hlen]
  exact List.map_congr_left fun i hi => hbs i (List.mem_range.1 hi)

/-- The String operand reads the wires below its length only (R25). -/
theorem WireRequest.string_congr {r r' : WireRequest} (hlen : r.hxLen = r'.hxLen)
    (hhx : ∀ i, i < r.hxLen.toNat → r.hx.extractLsb' (8 * i) 8 = r'.hx.extractLsb' (8 * i) 8) :
    r.string = r'.string := by
  unfold WireRequest.string
  rw [← hlen]
  exact List.map_congr_left fun i hi => hhx i (List.mem_range.1 hi)

/-- A BitString put on the wires is read back from them (R21, R25). -/
theorem WireRequest.bitString_withBits (r : WireRequest) {b : BitString} (h : b.length ≤ Config.lMax) :
    (r.withBits b).bitString = b := packBits_wire b h

/-- A String put on the wires is read back from them (R21, R25). -/
theorem WireRequest.string_withString (r : WireRequest) {h : Str} (hl : h.length ≤ Config.hMax) :
    (r.withString h).string = h := packChars_wire h hl

/-! What each code selects (R24, R26). -/

section
variable {r : WireRequest}

theorem decode_encode32 (h : r.op = 0b000#3) : decode r = .ok (.encode32 r.fval) := by simp [decode, h]
theorem decode_encode64 (h : r.op = 0b001#3) : decode r = .ok (.encode64 r.fval) := by simp [decode, h]
theorem decode_decode32 (h : r.op = 0b010#3) : decode r = .ok (.decode32 r.bitString) := by simp [decode, h]
theorem decode_decode64 (h : r.op = 0b011#3) : decode r = .ok (.decode64 r.bitString) := by simp [decode, h]
theorem decode_bitsFromHex32 (h : r.op = 0b100#3) : decode r = .ok (.bitsFromHex32 r.string) := by simp [decode, h]
theorem decode_bitsFromHex64 (h : r.op = 0b101#3) : decode r = .ok (.bitsFromHex64 r.string) := by simp [decode, h]
theorem decode_hexFromBits (h : r.op = 0b110#3) : decode r = .ok (.hexFromBits r.bitString) := by simp [decode, h]
theorem decode_reserved (h : r.op = 0b111#3) : decode r = .error .reservedOp := by simp [decode, h]

end

/-! The statements. -/

/-- Settles O6: the request of `i` carries the code of `i`, and its operand is read back from the wires. -/
theorem decodeOfEncodeIsTheOperation : Obligations.DecodeOfEncodeIsTheOperation := by
  intro i hwf
  cases i with
  | encode32 v => exact decode_encode32 rfl
  | encode64 v => exact decode_encode64 rfl
  | decode32 b => rw [encode, decode_decode32 (by rfl), WireRequest.bitString_withBits _ (of_decide_eq_true hwf)]
  | decode64 b => rw [encode, decode_decode64 (by rfl), WireRequest.bitString_withBits _ (of_decide_eq_true hwf)]
  | bitsFromHex32 h =>
    rw [encode, decode_bitsFromHex32 (by rfl), WireRequest.string_withString _ (of_decide_eq_true hwf)]
  | bitsFromHex64 h =>
    rw [encode, decode_bitsFromHex64 (by rfl), WireRequest.string_withString _ (of_decide_eq_true hwf)]
  | hexFromBits b => rw [encode, decode_hexFromBits (by rfl), WireRequest.bitString_withBits _ (of_decide_eq_true hwf)]

/-- Settles O4: the equations of `decode`, with the two operands of the wires as the sequences. -/
theorem codeSelectsOperationAndAssemblesOperand : Obligations.CodeSelectsOperationAndAssemblesOperand := fun r =>
  ⟨decode_encode32, decode_encode64,
    ⟨r.bitString, r.bitString_length, fun _ => r.bitString_getElem?, decode_decode32, decode_decode64,
      decode_hexFromBits⟩,
    ⟨r.string, r.string_length, fun _ => r.string_getElem?, decode_bitsFromHex32, decode_bitsFromHex64⟩⟩

/-- Settles O5: by the code; a sequence is well formed because its length field has 8 bits. -/
theorem everyOtherCodeDecodesWellFormed : Obligations.EveryOtherCodeDecodesWellFormed := by
  intro r hne
  have hbits := decide_eq_true r.bitString_length_le
  have hstring := decide_eq_true r.string_length_le
  rcases op_cases r.op with e | e | e | e | e | e | e | e
  · exact ⟨_, decode_encode32 e, rfl, e.symm⟩
  · exact ⟨_, decode_encode64 e, rfl, e.symm⟩
  · exact ⟨_, decode_decode32 e, hbits, e.symm⟩
  · exact ⟨_, decode_decode64 e, hbits, e.symm⟩
  · exact ⟨_, decode_bitsFromHex32 e, hstring, e.symm⟩
  · exact ⟨_, decode_bitsFromHex64 e, hstring, e.symm⟩
  · exact ⟨_, decode_hexFromBits e, hbits, e.symm⟩
  · exact absurd e hne

/-- Settles O7: by the code; equal codes select one operation, and its operand reads only the fields of its row. -/
theorem decodeReadsOnlyTheFieldsOfItsRow : Obligations.DecodeReadsOnlyTheFieldsOfItsRow := by
  intro r r' hop hfval hbs hhx
  have hbits (h : r.op = 0b010#3 ∨ r.op = 0b011#3 ∨ r.op = 0b110#3) : r.bitString = r'.bitString :=
    WireRequest.bitString_congr (hbs h).1 (hbs h).2
  have hstring (h : r.op = 0b100#3 ∨ r.op = 0b101#3) : r.string = r'.string :=
    WireRequest.string_congr (hhx h).1 (hhx h).2
  rcases op_cases r.op with e | e | e | e | e | e | e | e <;> have e' := hop.symm.trans e
  · rw [decode_encode32 e, decode_encode32 e', hfval (.inl e)]
  · rw [decode_encode64 e, decode_encode64 e', hfval (.inr e)]
  · rw [decode_decode32 e, decode_decode32 e', hbits (.inl e)]
  · rw [decode_decode64 e, decode_decode64 e', hbits (.inr (.inl e))]
  · rw [decode_bitsFromHex32 e, decode_bitsFromHex32 e', hstring (.inl e)]
  · rw [decode_bitsFromHex64 e, decode_bitsFromHex64 e', hstring (.inr e)]
  · rw [decode_hexFromBits e, decode_hexFromBits e', hbits (.inr (.inr e))]
  · rw [decode_reserved e, decode_reserved e']

/-- Settles O3: `step` serves the request at the head, and serving a request that `decode` refuses is refused. -/
theorem stepRefusesReservedCodeAndEmptyPort : Obligations.StepRefusesReservedCodeAndEmptyPort := by
  refine ⟨fun r rest rs h => ?_, fun _ => rfl⟩
  have hdecode := decode_reserved h
  exact ⟨hdecode, Machine.serve_of_decode_error hdecode rest _⟩

end Sys2Proof
end

section
/-! PROOF. The glyphs of a decode's text (R23, R46, R51): the fixed texts are read off, and a finite value that is not
zero has a numeral of R51's grammar, each part of which holds glyphs only. -/

namespace Sys2Proof.Machine

/-- A glyph of the texts (R23): a digit, `'.'`, `'e'`, a sign, or a letter of `inf` and `nan`. -/
def TextGlyph (c : Char8) : Prop :=
  (0x30 ≤ c.toNat ∧ c.toNat ≤ 0x39) ∨ c = 0x2E#8 ∨ c = 0x65#8 ∨ c = 0x2B#8 ∨
    c = 0x2D#8 ∨ c = 0x69#8 ∨ c = 0x6E#8 ∨ c = 0x66#8 ∨ c = 0x61#8

/-- A String that holds glyphs of the texts only. -/
def HoldsTextGlyphs (t : Str) : Prop := ∀ c ∈ t, TextGlyph c

theorem holdsTextGlyphs_nil : HoldsTextGlyphs [] := fun _ h => nomatch h

theorem HoldsTextGlyphs.cons {c : Char8} {t : Str} (hc : TextGlyph c) (ht : HoldsTextGlyphs t) :
    HoldsTextGlyphs (c :: t) := List.forall_mem_cons.2 ⟨hc, ht⟩

theorem textGlyph_chMinus : TextGlyph chMinus := by simp [TextGlyph, chMinus]
theorem textGlyph_chPlus : TextGlyph chPlus := by simp [TextGlyph, chPlus]
theorem textGlyph_chDot : TextGlyph chDot := by simp [TextGlyph, chDot]
theorem textGlyph_chE : TextGlyph chE := by simp [TextGlyph, chE]

theorem textGlyph_of_decDigit {c : Char8} {d : Nat} (h : decDigit? c = some d) : TextGlyph c := by
  unfold decDigit? at h
  split_ifs at h with hc
  exact .inl hc

/-- Glyphs after the digits at the start, glyphs throughout. -/
theorem holdsTextGlyphs_of_spanDigits {t : Str} (h : HoldsTextGlyphs (spanDigits t).2) : HoldsTextGlyphs t := by
  induction t with
  | nil => exact holdsTextGlyphs_nil
  | cons c cs ih =>
    rw [spanDigits] at h
    cases hc : decDigit? c with
    | none => rwa [hc] at h
    | some d =>
      rw [hc] at h
      exact .cons (textGlyph_of_decDigit hc) (ih h)

/-- Digits to the end are glyphs throughout. -/
theorem holdsTextGlyphs_of_digits {t : Str} (h : (spanDigits t).2 = []) : HoldsTextGlyphs t :=
  holdsTextGlyphs_of_spanDigits (h ▸ holdsTextGlyphs_nil)

/-- `'e' ('+' | '-') digits` holds glyphs only. -/
theorem holdsTextGlyphs_of_parseExponent {t : Str} (h : (parseExponent t).isSome) : HoldsTextGlyphs t := by
  rcases t with _ | ⟨c, _ | ⟨sg, rest⟩⟩
  · cases h
  · cases h
  · simp only [parseExponent] at h
    split at h
    · cases h
    next hshape =>
      obtain ⟨hc, -, hend⟩ : c = chE ∧ (spanDigits rest).1 ≠ [] ∧ (spanDigits rest).2 = [] := by
        simpa only [not_or, not_not] using hshape
      have hdigits := holdsTextGlyphs_of_digits hend
      split_ifs at h with hplus hminus
      · exact hc ▸ hplus ▸ .cons textGlyph_chE (.cons textGlyph_chPlus hdigits)
      · exact hc ▸ hminus ▸ .cons textGlyph_chE (.cons textGlyph_chMinus hdigits)
      · cases h

/-- A numeral without its sign holds glyphs only. -/
theorem holdsTextGlyphs_of_parseUnsigned {neg : Bool} {t : Str} (h : (parseUnsigned neg t).isSome) :
    HoldsTextGlyphs t := by
  apply holdsTextGlyphs_of_spanDigits
  simp only [parseUnsigned] at h
  split_ifs at h with hw
  · cases h
  · cases hrest : (spanDigits t).2 with
    | nil => exact holdsTextGlyphs_nil
    | cons c rest =>
      simp only [hrest] at h
      split_ifs at h with hdot hfrac hend
      · cases h
      · exact hdot ▸ .cons textGlyph_chDot (holdsTextGlyphs_of_digits hend)
      · rw [Option.isSome_map] at h
        exact hdot ▸ .cons textGlyph_chDot (holdsTextGlyphs_of_spanDigits (holdsTextGlyphs_of_parseExponent h))
      · rw [Option.isSome_map] at h
        exact holdsTextGlyphs_of_parseExponent h

/-- A text of a decode: not empty, and glyphs only (R46). -/
def GlyphText (t : Str) : Prop := t ≠ [] ∧ HoldsTextGlyphs t

/-- A numeral of R51's grammar is such a text. -/
theorem glyphText_of_parseNumeral {t : Str} (h : (parseNumeral t).isSome) : GlyphText t := by
  cases t with
  | nil => cases h
  | cons c cs =>
    refine ⟨List.cons_ne_nil c cs, ?_⟩
    rw [parseNumeral] at h
    split_ifs at h with hc
    · exact hc ▸ .cons textGlyph_chMinus (holdsTextGlyphs_of_parseUnsigned h)
    · exact holdsTextGlyphs_of_parseUnsigned h

/-- So are the fixed texts, of either sign (R47, R48, R49). -/
theorem glyphText_fixedTexts (s : BitVec 1) :
    GlyphText (if s = 1 then txtNegInf else txtInf) ∧ GlyphText (if s = 1 then txtNegZero else txtZero) ∧
      GlyphText (if s = 1 then txtNegNan else txtNan) := by
  unfold GlyphText HoldsTextGlyphs TextGlyph
  revert s
  decide

/-- The text of a value is such a text if its text as a finite value that is not zero is. -/
theorem glyphText_fixedTextOr (d : Word64) (t : Str)
    (ht : class64 d = .normal ∨ class64 d = .subnormal → GlyphText t) : GlyphText (fixedTextOr d t) := by
  obtain ⟨hinf, hzero, hnan⟩ := glyphText_fixedTexts (sign64 d)
  unfold fixedTextOr
  cases hc : class64 d with
  | normal => exact ht (.inl hc)
  | subnormal => exact ht (.inr hc)
  | infinity => exact hinf
  | zero => exact hzero
  | nan => exact hnan

/-- The machine's text of any native value is such a text, whatever the free text. -/
theorem glyphText_textRender (d : Word64) : GlyphText (codecParams.textRender d) :=
  glyphText_fixedTextOr d _ fun h => glyphText_of_parseNumeral (readableText_reads d h _).1

/-- Settles O28: the text of a decode is the machine's text of its native float. -/
theorem decodedTextHoldsOnlyItsGlyphs : Obligations.DecodedTextHoldsOnlyItsGlyphs := by
  intro i s d hans
  obtain ⟨htext, -⟩ := respond_decoded i d ((answersWith_iff _ _ _).1 hans)
  rw [htext]
  exact glyphText_textRender d.rval

end Sys2Proof.Machine
end

section
/-! PROOF. Responses on the wire (R22, R27, R28, R54): a sequence of at most 255 elements fits, with its own length; the
BitStrings that operations return and the HexStrings of operands of the wire are that short. -/

namespace Sys2Proof.Machine

/-- A sequence that fits the wire is carried with its length and its elements (R22, R28). -/
theorem exists_wireSeq_of_length_le {α : Type} {l : List α} (h : l.length ≤ Config.sMax) :
    ∃ q, wireSeq l = some q ∧ q.len.toNat = l.length ∧ q.elems = l :=
  ⟨⟨BitVec.ofNat 8 l.length, l⟩, if_pos h,
    (BitVec.toNat_ofNat _ _).trans (Nat.mod_eq_of_lt (Nat.lt_succ_of_le h)), rfl⟩

/-- `status` 11 is never produced (R27). -/
theorem statusCode_ne_three (a : Response) : statusCode a ≠ 0b11#2 := by
  rcases a with _ | _ | _ <;> simp [statusCode]

/-- Settles O50: a result BitString has 32 or 64 elements, so it fits the wire as a text of at most 255 does. -/
theorem responsesOnTheWire : Obligations.ResponsesOnTheWire := by
  refine ⟨fun i s b hans => ?_, fun d hd => ?_, statusCode_ne_three, rfl, rfl, rfl, rfl, rfl⟩
  · obtain ⟨h32, h64, hor⟩ := respond_bits_length i b ((answersWith_iff _ _ _).1 hans)
    have hfits : b.length ≤ 255 := by omega
    obtain ⟨q, hq, hlen, helems⟩ := exists_wireSeq_of_length_le hfits
    exact ⟨q, by simp [Response.toWire, hq, statusCode], helems,
      fun h => BitVec.eq_of_toNat_eq (hlen.trans (h32 h)), fun h => BitVec.eq_of_toNat_eq (hlen.trans (h64 h))⟩
  · obtain ⟨q, hq, hlen, helems⟩ := exists_wireSeq_of_length_le hd
    exact ⟨q, by simp [Response.toWire, hq, statusCode], hlen, helems⟩

/-- What HEXFROMBITS answers (R54). -/
theorem answersWith_hexFromBits_iff (b : BitString) (s : State) (h : Str) :
    AnswersWith (.hexFromBits b) s (.ok (.hex h)) ↔ b ≠ [] ∧ h = hexPrefix ++ hexDigits (uint b) := by
  rw [answersWith_iff, respond]
  split_ifs with hb <;> simp [hb, eq_comm]

/-- `HEXDIGITS` writes one digit for each four bits begun, and one for 0 (R55). -/
theorem hexDigits_length (n : Nat) : (hexDigits n).length = max 1 ((n.size + 3) / 4) := by
  rw [hexDigits, List.length_map]
  refine digitsOf_16_length n n.size (fun h => h ▸ Nat.size_zero) (fun h => ?_) (Nat.lt_size_self n)
  have hpos : 0 < n.size := Nat.size_pos.2 (Nat.pos_of_ne_zero h)
  exact ⟨Nat.lt_size.1 (Nat.sub_lt hpos one_pos), hpos.ne'⟩

/-- The HexString of a BitString has at most one digit for each four elements begun, after `0x` (R54). -/
theorem hexFromBits_length_le {b : BitString} (hb : b ≠ []) :
    (hexPrefix ++ hexDigits (uint b)).length ≤ 2 + (b.length + 3) / 4 := by
  have hsize : (uint b).size ≤ b.length := Nat.size_le.2 (uint_lt b)
  have hpos : 0 < b.length := List.length_pos_iff.2 hb
  have h0x : hexPrefix.length = 2 := rfl
  rw [List.length_append, hexDigits_length, h0x]
  omega

/-- Settles O51: 255 elements begin 64 groups of four, and `0x` has two characters. -/
theorem hexStringsFitTheWire : Obligations.HexStringsFitTheWire := by
  intro b s h hwf hans
  obtain ⟨hb, rfl⟩ := (answersWith_hexFromBits_iff b s h).1 hans
  have hlen : b.length ≤ 255 := of_decide_eq_true hwf
  have hbound := hexFromBits_length_le hb
  have h66 : (hexPrefix ++ hexDigits (uint b)).length ≤ 66 := by omega
  obtain ⟨q, hq, hqlen, hqelems⟩ := exists_wireSeq_of_length_le (h66.trans (by decide : 66 ≤ Config.sMax))
  exact ⟨h66, q, by simp [Response.toWire, hq, statusCode], hqlen, hqelems⟩

end Sys2Proof.Machine
end

section
/-! PROOF. Fields and classes (R31 to R35): the fields are slices of the pattern, at both widths, and the class is the
kind of the value that the pattern denotes. The class is settled once for every format, by the magnitude pattern. -/

namespace Sys2Proof.Machine

/-- The BitString of a binary32 pattern is that of its three fields, one after the other (R31). -/
theorem toBitString_fields32 (w : Word32) :
    toBitString w = toBitString (sign32 w) ++ (toBitString (exp32 w) ++ toBitString (man32 w)) := by
  rw [← toBitString_append, ← toBitString_append, ← pack32, pack32_fields]

/-- The BitString of a binary64 pattern is that of its three fields, one after the other (R32). -/
theorem toBitString_fields64 (d : Word64) :
    toBitString d = toBitString (sign64 d) ++ (toBitString (exp64 d) ++ toBitString (man64 d)) := by
  rw [← toBitString_append, ← toBitString_append, ← pack64, pack64_fields]

/-- A slice of a word, element by element. -/
theorem getLsbD_slice {n : Nat} (w : BitVec n) (start len i : Nat) (h : i < len) :
    (w.extractLsb' start len).getLsbD i = w.getLsbD (start + i) := by
  rw [BitVec.getLsbD_extractLsb', decide_eq_true h, Bool.true_and]

/-- Settles O11: the fields are slices, and packing them gives the pattern back. -/
theorem extract32PartitionsTheWord : Obligations.Extract32PartitionsTheWord := by
  refine ⟨fun w => ⟨fun i hi => ?_, getLsbD_slice w 23 8, fun i hi => ?_, toBitString_fields32 w, pack32_fields w⟩,
    by decide⟩
  · obtain rfl := Nat.lt_one_iff.1 hi
    exact sign32_getLsbD w
  · rw [man32, getLsbD_slice w 0 23 i hi, Nat.zero_add]

/-- Settles O12: the fields are slices, and they are read back from the pattern they are packed into. -/
theorem extract64PartitionsTheWord : Obligations.Extract64PartitionsTheWord := by
  refine ⟨fun d => ⟨fun i hi => ?_, getLsbD_slice d 52 11, fun i hi => ?_, toBitString_fields64 d⟩,
    fun s e m => ⟨sign64_pack64 s e m, exp64_pack64 s e m, man64_pack64 s e m⟩, by decide⟩
  · obtain rfl := Nat.lt_one_iff.1 hi
    exact sign64_getLsbD d
  · rw [man64, getLsbD_slice d 0 52 i hi, Nat.zero_add]

/-- The kind of a value of a format whose least normal magnitude is `least`. -/
def Value.kind (least : ℚ) (x : Value) : FpClass :=
  match x with
  | .nan => .nan
  | .infinity _ => .infinity
  | .finite neg k y =>
      let q : ℚ := (if neg then -1 else 1) * (k : ℚ) * (2 : ℚ) ^ y
      if q = 0 then .zero else if |q| < least then .subnormal else .normal

/-- The kind of a value that is a number, by the number. -/
theorem Value.kind_of_toRat {least q : ℚ} {x : Value} (h : x.toRat = some q) :
    x.kind least = if q = 0 then .zero else if |q| < least then .subnormal else .normal := by
  cases x with
  | finite neg k y => obtain rfl := Option.some.inj h; rfl
  | infinity neg => cases h
  | nan => cases h

/-- What each kind says of a value. -/
theorem Value.kind_iff {least : ℚ} (hleast : 0 < least) (x : Value) :
    (x.kind least = .nan ↔ x = .nan) ∧
    (x.kind least = .infinity ↔ ∃ neg, x = .infinity neg) ∧
    (x.kind least = .zero ↔ x.toRat = some 0) ∧
    (x.kind least = .subnormal ↔ ∃ q, x.toRat = some q ∧ q ≠ 0 ∧ |q| < least) ∧
    (x.kind least = .normal ↔ ∃ q, x.toRat = some q ∧ least ≤ |q|) := by
  cases x with
  | nan => simp [Value.kind, Value.toRat]
  | infinity neg => simp [Value.kind, Value.toRat]
  | finite neg k y =>
    obtain ⟨q, hq⟩ : ∃ q, (Value.finite neg k y).toRat = some q := ⟨_, rfl⟩
    rw [Value.kind_of_toRat hq, hq]
    by_cases h0 : q = 0
    · simp [h0, hleast]
    · by_cases hlt : |q| < least
      · simp [h0, hlt]
      · simp [h0, hlt, not_lt.1 hlt]

/-- The least normal magnitude of a format: exponent 1, mantissa 0 (R33). -/
theorem magVal_leastNormal (F : Format) : magVal F (2 ^ F.manBits) = (2 : ℚ) ^ (1 - (F.bias : ℤ)) := by
  have hblock := magVal_block F 0 (2 ^ F.manBits) (Nat.pow_le_pow_right two_pos (Nat.le_succ _)) (.inl rfl)
  rw [Nat.zero_mul, Nat.zero_add] at hblock
  rw [hblock, Nat.cast_pow, Nat.cast_ofNat, ← zpow_natCast, ← zpow_add₀ two_ne_zero]
  congr 1
  push_cast
  ring

/-- The kind of a number, by its magnitude pattern: magnitudes are ordered as their patterns are. -/
theorem Value.kind_of_magnitude {F : Format} {s : BitVec 1} {k : Nat} {x : Value}
    (h : x.toRat = some (signFactor s * magVal F k)) :
    x.kind ((2 : ℚ) ^ (1 - (F.bias : ℤ))) =
      if k = 0 then .zero else if k < 2 ^ F.manBits then .subnormal else .normal := by
  have habs : |signFactor s * magVal F k| = magVal F k := by
    rw [abs_mul, abs_signFactor, one_mul, abs_of_nonneg (magVal_nonneg F k)]
  have hzero : signFactor s * magVal F k = 0 ↔ k = 0 := by
    rw [← abs_eq_zero, habs, ← magVal_zero F, (magVal_strictMono F).injective.eq_iff]
  simp only [Value.kind_of_toRat h, habs, hzero, ← magVal_leastNormal, (magVal_strictMono F).lt_iff_lt]

/-- `CLASSIFY_N` gives the kind of the value denoted, in every format (R33, R34). -/
theorem classify_eq_kind (F : Format) (s : BitVec 1) (e : BitVec F.expBits) (m : BitVec F.manBits) :
    classify e m = (val F s e.toNat m.toNat).kind ((2 : ℚ) ^ (1 - (F.bias : ℤ))) := by
  rw [classify_cases]
  by_cases he : e.toNat = 2 ^ F.expBits - 1
  · rw [if_pos he, val, if_pos he]
    by_cases hm : m.toNat = 0
    · rw [if_pos hm, if_pos hm]; rfl
    · rw [if_neg hm, if_neg hm]; rfl
  · rw [if_neg he, Value.kind_of_magnitude (toRat_val F s _ _ he m.isLt)]
    by_cases he0 : e.toNat = 0
    · rw [if_pos he0, he0, Nat.zero_mul, Nat.zero_add, if_pos m.isLt]
    · have hnormal : 2 ^ F.manBits ≤ e.toNat * 2 ^ F.manBits + m.toNat :=
        (Nat.le_mul_of_pos_left _ (Nat.pos_of_ne_zero he0)).trans (Nat.le_add_right _ _)
      rw [if_neg he0, if_neg ((Nat.two_pow_pos _).trans_le hnormal).ne', if_neg hnormal.not_gt]

/-- An infinity that `val` gives has the sign of the pattern (R33). -/
theorem exists_val_infinity_iff (F : Format) (s : BitVec 1) (e m : Nat) :
    (∃ neg, val F s e m = .infinity neg) ↔ val F s e m = .infinity (s = 1) := by
  refine ⟨fun ⟨neg, h⟩ => ?_, fun h => ⟨_, h⟩⟩
  unfold val at h ⊢
  split_ifs at h ⊢
  rfl

/-- What each class of a pattern says of the value it denotes, in every format (R33, R34). -/
theorem classify_iff_val (F : Format) (s : BitVec 1) (e : BitVec F.expBits) (m : BitVec F.manBits) :
    (classify e m = .nan ↔ val F s e.toNat m.toNat = .nan) ∧
    (classify e m = .infinity ↔ val F s e.toNat m.toNat = .infinity (s = 1)) ∧
    (classify e m = .zero ↔ (val F s e.toNat m.toNat).toRat = some 0) ∧
    (classify e m = .subnormal ↔
      ∃ x, (val F s e.toNat m.toNat).toRat = some x ∧ x ≠ 0 ∧ |x| < (2 : ℚ) ^ (1 - (F.bias : ℤ))) ∧
    (classify e m = .normal ↔
      ∃ x, (val F s e.toNat m.toNat).toRat = some x ∧ (2 : ℚ) ^ (1 - (F.bias : ℤ)) ≤ |x|) := by
  rw [← exists_val_infinity_iff, classify_eq_kind F s e m]
  exact Value.kind_iff (zpow_pos two_pos _) _

theorem sign32_eq_one_iff (w : Word32) : sign32 w = 1 ↔ w.getLsbD 31 = true := by
  rw [← sign32_getLsbD]; generalize sign32 w = s; revert s; decide

/-- Settles O13: the law of every format, at the two widths. -/
theorem classIsTheKindOfTheDenotedValue : Obligations.ClassIsTheKindOfTheDenotedValue := by
  refine ⟨fun w => ?_, fun d => ?_⟩
  · have hclass := classify_iff_val binary32 (sign32 w) (exp32 w) (man32 w)
    simp only [sign32_eq_one_iff, Bool.decide_eq_true, binary32_bias] at hclass
    exact hclass
  · have hclass := classify_iff_val binary64 (sign64 d) (exp64 d) (man64 d)
    simp only [sign64_eq_one_iff, Bool.decide_eq_true, binary64_bias] at hclass
    exact hclass

end Sys2Proof.Machine
end

section
/-! PROOF. ENCODE32 by the class of its operand (R35, R37, R38, R39): one equation of narrowing for each
class that is not rounded, and the BitStrings of the patterns narrowing makes. -/

namespace Sys2Proof.Machine

theorem narrow32_of_zero (P : Params) {v : Word64} (h : class64 v = .zero) : narrow32 P v = zero32 (sign64 v) := by
  simp only [narrow32, h]

theorem narrow32_of_infinity (P : Params) {v : Word64} (h : class64 v = .infinity) :
    narrow32 P v = inf32 (sign64 v) := by
  simp only [narrow32, h]

theorem narrow32_of_nan (P : Params) {v : Word64} (h : class64 v = .nan) :
    narrow32 P v = nan32 (sign64 v) (P.nanNarrow (man64 v)) := by
  simp only [narrow32, h]

/-- A zero has the sign of the operand and 31 zero bits (R35). -/
theorem toBitString_zero32 (v : Word64) :
    toBitString (zero32 (sign64 v)) = v.getLsbD 63 :: List.replicate 31 false := by
  rw [zero32, toBitString_pack32, sign64_getLsbD, toBitString_zero, toBitString_zero, List.replicate_append_replicate]

/-- A NaN, or an infinity where `p` is 0, has the sign of the operand, 8 one bits and `p` (R35). -/
theorem toBitString_nan32 (v : Word64) (p : BitVec 23) :
    toBitString (nan32 (sign64 v) p) = v.getLsbD 63 :: (List.replicate 8 true ++ toBitString p) := by
  rw [nan32, toBitString_pack32, sign64_getLsbD, toBitString_allOnes]

/-- From the overflow threshold up to infinity narrowing gives infinity (R38). -/
theorem narrow32_of_overflow (P : Params) {v : Word64} (hlo : 0x47EFFFFFF0000000 ≤ v.toNat % 2 ^ 63)
    (hhi : v.toNat % 2 ^ 63 ≤ 0x7FF0000000000000) : narrow32 P v = inf32 (sign64 v) := by
  rcases hhi.lt_or_eq with hfin | hinf
  · exact (narrow32_cases P v hfin).2 hlo
  · exact narrow32_of_infinity P (by rw [class64_eq, if_pos hinf])

/-- A binary32 pattern below the all-ones exponent is no infinity and no NaN (R34). -/
theorem class32_finite {w : Word32} (h : w.toNat % 2 ^ 31 < 0x7F800000) :
    class32 w ≠ .infinity ∧ class32 w ≠ .nan := by
  rw [class32_eq, if_neg h.ne, if_neg h.not_gt]
  split_ifs <;> decide

/-- Settles O16: the magnitude bits say that the operand is a zero. -/
theorem encode32OfZeroKeepsTheSign : Obligations.Encode32OfZeroKeepsTheSign := by
  intro v s h
  have hzero : class64 v = .zero := by rw [class64_eq, h]; rfl
  rw [← toBitString_zero32, ← narrow32_of_zero codecParams hzero]
  exact answersWith_encode32 v s

/-- Settles O17: narrowing gives infinity from the threshold on, and below it a magnitude less than infinity's. -/
theorem encode32OverflowsToSignedInfinityExactly : Obligations.Encode32OverflowsToSignedInfinityExactly := by
  refine fun v s => ⟨fun hlo hhi => ?_, fun hlt => ?_⟩
  · have hinf : narrow32 codecParams v = nan32 (sign64 v) 0 := narrow32_of_overflow codecParams hlo hhi
    rw [← toBitString_zero, ← toBitString_nan32, ← hinf]
    exact answersWith_encode32 v s
  · obtain ⟨hsign, hfin, -⟩ := narrow32_nearestMagnitude codecParams v hlt
    exact ⟨narrow32 codecParams v, answersWith_encode32 v s, hsign, class32_finite hfin⟩

/-- Settles O19: the function is `NAN_NARROW` of the machine. -/
theorem encode32OfNanIsNanOfTheSameSign : Obligations.Encode32OfNanIsNanOfTheSameSign := by
  refine ⟨codecParams.nanNarrow, fun m _ => nonZero_ne (by norm_num) _, fun v s h => ?_⟩
  have hnan : class64 v = .nan := by rw [class64_eq, if_neg h.ne', if_pos h]
  rw [← man64, ← toBitString_nan32, ← narrow32_of_nan codecParams hnan]
  exact answersWith_encode32 v s

end Sys2Proof.Machine
end

section
/-! PROOF. What a decode reports of its pattern (R31, R32, R34, R42, R43). A BitString of the right length is that of a
word, whose fields are read off it. -/

namespace Sys2Proof.Machine

theorem answersWith_decode64 (b : BitString) (s : State) (h : b.length = 64) :
    AnswersWith (.decode64 b) s (.ok (.decoded (decoded64 codecParams (toWord 64 b)))) :=
  (answersWith_iff _ _ _).2 (by simp [respond, h])

/-- Zero-extension keeps what is not zero from being zero. -/
theorem setWidth_eq_zero_iff {m n : Nat} (h : m ≤ n) (x : BitVec m) : x.setWidth n = 0 ↔ x = 0 := by
  rw [← BitVec.toNat_inj, ← BitVec.toNat_inj, BitVec.toNat_setWidth_of_le h]
  rfl

/-- Settles O21: the fields of the word of `b`, and its class by R34's table; zero-extension keeps the numbers. -/
theorem decode32ReportsFieldsAndClass : Obligations.Decode32ReportsFieldsAndClass := by
  intro b s hb
  obtain ⟨w, rfl⟩ : ∃ w : Word32, b = toBitString w := ⟨toWord 32 b, (toBitString_toWord b hb).symm⟩
  have hans := answersWith_decode32 _ s hb
  rw [toWord_toBitString] at hans
  refine ⟨decoded32 codecParams w, hans, uint_sign32 w, ?_⟩
  have hexp : (decoded32 codecParams w).exp.toNat = (exp32 w).toNat := BitVec.toNat_setWidth_of_le (by decide)
  have hman : (decoded32 codecParams w).man.toNat = (man32 w).toNat := BitVec.toNat_setWidth_of_le (by decide)
  have hman0 : (decoded32 codecParams w).man = 0 ↔ man32 w = 0 := setWidth_eq_zero_iff (by decide : 23 ≤ 52) (man32 w)
  obtain ⟨hinf, hnan, hzero, hsub, hnormal⟩ := classify_of_fields (exp32 w) (man32 w) (by decide)
  rw [hexp, hman, uint_exp32, uint_man32, ne_eq, hman0]
  exact ⟨rfl, rfl, hinf, hnan, hzero, hsub, hnormal, rfl⟩

/-- Settles O24: `rval` is the word of `b`, and the fields and the class are that word's. -/
theorem decode64ReturnsThePattern : Obligations.Decode64ReturnsThePattern := by
  intro b s hb
  obtain ⟨d, rfl⟩ : ∃ d : Word64, b = toBitString d := ⟨toWord 64 b, (toBitString_toWord b hb).symm⟩
  have hans := answersWith_decode64 _ s hb
  rw [toWord_toBitString] at hans
  obtain ⟨hinf, hnan, hzero, hsub, hnormal⟩ := classify_of_fields (exp64 d) (man64 d) (by decide)
  exact ⟨decoded64 codecParams d, hans, toBitString_getElem? d, uint_sign64 d, (uint_exp64 d).symm, (uint_man64 d).symm,
    hinf, hnan, hzero, hsub, hnormal, rfl⟩

end Sys2Proof.Machine
end

section
/-! PROOF. The encodes on the wire (R40, R41) and the open parameters (R37, R45, R47 to R50): the responses of the two
encode codes read `fval` alone; the parameters made from free values are the lawful ones; the reference NaN maps. -/

namespace Sys2Proof.Machine

/-! ENCODE32 and ENCODE64. -/

theorem answersWith_encode64 (v : Word64) (s : State) : AnswersWith (.encode64 v) s (.ok (.bits (toBitString v))) :=
  (answersWith_iff _ _ _).2 rfl

/-- Settles O15: the BitString is that of the operand. -/
theorem encode64ReturnsTheOperandsBits : Obligations.Encode64ReturnsTheOperandsBits := fun v s =>
  ⟨toBitString v, answersWith_encode64 v s, toBitString_length v, toBitString_getElem? v⟩

/-- Settles O14: either code decodes to an operation whose operand is `fval`, and its response reads no state. -/
theorem encodesAreTotalAndReadOnlyFval : Obligations.EncodesAreTotalAndReadOnlyFval := by
  rintro op v (rfl | rfl)
  · refine ⟨toBitString (narrow32 codecParams v), toBitString_length _, fun r rest rs hop hv => ?_⟩
    exact step_of_respond r rest rs (decode_encode32 hop) (hv ▸ rfl)
  · refine ⟨toBitString v, toBitString_length _, fun r rest rs hop hv => ?_⟩
    exact step_of_respond r rest rs (decode_encode64 hop) (hv ▸ rfl)

/-! The free parameters. -/

/-- A mantissa that is not zero is kept. -/
theorem nonZero_of_ne_zero {n : Nat} {p : BitVec n} (h : p ≠ 0) : nonZero p = p := if_neg h

/-- The text of an infinity is fixed (R47). -/
theorem fixedTextOr_inf64 (s : BitVec 1) (t : Str) :
    fixedTextOr (inf64 s) t = if s = 1 then txtNegInf else txtInf := by
  obtain rfl | rfl : s = 0 ∨ s = 1 := BitVec.eq_zero_or_eq_one s
  · rfl
  · rfl

/-- The text of a zero is fixed (R48). -/
theorem fixedTextOr_zero64 (s : BitVec 1) (t : Str) :
    fixedTextOr (zero64 s) t = if s = 1 then txtNegZero else txtZero := by
  obtain rfl | rfl : s = 0 ∨ s = 1 := BitVec.eq_zero_or_eq_one s
  · rfl
  · rfl

/-- The text of a NaN is fixed (R49). -/
theorem fixedTextOr_of_nan {d : Word64} (h : class64 d = .nan) (t : Str) :
    fixedTextOr d t = if d.getLsbD 63 then txtNegNan else txtNan := by
  simp only [fixedTextOr, h, sign64_eq_one_iff]

/-- The text of a finite value that is not zero is open (R50). -/
theorem fixedTextOr_of_finite {d : Word64} (h : class64 d = .normal ∨ class64 d = .subnormal) (t : Str) :
    fixedTextOr d t = t := by
  rcases h with h | h
  · simp only [fixedTextOr, h]
  · simp only [fixedTextOr, h]

/-- A text that R50 allows is kept. -/
theorem readableText_of_reads {d : Word64} {t : Str} (h : (parseNumeral t).isSome ∧ parseRef t = some d) :
    readableText d t = t := if_pos h

theorem paramsOfFree_textRender (f : BitVec 52 → BitVec 23) (g : BitVec 23 → BitVec 52) (t : Word64 → Str) (d : Word64) :
    (paramsOfFree f g t).textRender d = fixedTextOr d (readableText d (t d)) := rfl

/-- The parameters made from any three functions satisfy the rules (R37, R45, R47 to R50). -/
theorem lawfulParams_paramsOfFree (f : BitVec 52 → BitVec 23) (g : BitVec 23 → BitVec 52) (t : Word64 → Str) :
    LawfulParams (paramsOfFree f g t) where
  nanNarrow_ne_zero m _ := nonZero_ne (by decide) (f m)
  nanWiden_ne_zero m _ := nonZero_ne (by decide) (g m)
  text_inf := (paramsOfFree_textRender f g t _).trans (fixedTextOr_inf64 0 _)
  text_neg_inf := (paramsOfFree_textRender f g t _).trans (fixedTextOr_inf64 1 _)
  text_zero := (paramsOfFree_textRender f g t _).trans (fixedTextOr_zero64 0 _)
  text_neg_zero := (paramsOfFree_textRender f g t _).trans (fixedTextOr_zero64 1 _)
  text_nan d h := (paramsOfFree_textRender f g t d).trans (fixedTextOr_of_nan h _)
  text_finite d h := by
    rw [paramsOfFree_textRender, fixedTextOr_of_finite h]
    exact readableText_reads d h (t d)

section
variable {P : Params} (hP : LawfulParams P)
include hP

theorem LawfulParams.textRender_inf64 (s : BitVec 1) :
    P.textRender (inf64 s) = if s = 1 then txtNegInf else txtInf := by
  obtain rfl | rfl : s = 0 ∨ s = 1 := BitVec.eq_zero_or_eq_one s
  · exact hP.text_inf
  · exact hP.text_neg_inf

theorem LawfulParams.textRender_zero64 (s : BitVec 1) :
    P.textRender (zero64 s) = if s = 1 then txtNegZero else txtZero := by
  obtain rfl | rfl : s = 0 ∨ s = 1 := BitVec.eq_zero_or_eq_one s
  · exact hP.text_zero
  · exact hP.text_neg_zero

/-- A lawful text is one that the model's construction keeps: fixed by R47 to R49, or readable by R50. -/
theorem LawfulParams.fixedTextOr_readableText (d : Word64) :
    fixedTextOr d (readableText d (P.textRender d)) = P.textRender d := by
  have hfinite (h : class64 d = .normal ∨ class64 d = .subnormal) :
      fixedTextOr d (readableText d (P.textRender d)) = P.textRender d :=
    (fixedTextOr_of_finite h _).trans (readableText_of_reads (hP.text_finite d h))
  cases hc : class64 d with
  | normal => exact hfinite (.inl hc)
  | subnormal => exact hfinite (.inr hc)
  | nan => rw [fixedTextOr_of_nan hc, hP.text_nan d hc]
  | infinity => rw [eq_inf64_of_class hc, fixedTextOr_inf64, hP.textRender_inf64]
  | zero => rw [eq_zero64_of_class hc, fixedTextOr_zero64, hP.textRender_zero64]

end

/-- Settles O30: the construction is lawful, and of what is lawful already it changes nothing that is read. -/
theorem freeParametersAreExactlyTheLawfulOnes : Obligations.FreeParametersAreExactlyTheLawfulOnes :=
  ⟨lawfulParams_paramsOfFree, fun _ hP =>
    ⟨fun m hm => nonZero_of_ne_zero (hP.nanNarrow_ne_zero m hm),
     fun m hm => nonZero_of_ne_zero (hP.nanWiden_ne_zero m hm),
     funext hP.fixedTextOr_readableText⟩⟩

/-! The reference NaN maps. -/

/-- Below bit 22 `NAN_NARROW_REF` keeps the top mantissa bits. -/
theorem nanNarrowRef_getLsbD (m : BitVec 52) {i : Nat} (h : i < 22) :
    (nanNarrowRef m).getLsbD i = m.getLsbD (29 + i) := by
  have hquiet : (0x400000#23).getLsbD i = false := by
    revert i; decide
  rw [nanNarrowRef, BitVec.getLsbD_or, hquiet, Bool.or_false, getLsbD_slice m 29 23 i (by omega)]

/-- `NAN_NARROW_REF` sets the quiet bit. -/
theorem nanNarrowRef_quiet (m : BitVec 52) : (nanNarrowRef m).getLsbD 22 = true := by
  rw [nanNarrowRef, BitVec.getLsbD_or]
  exact Bool.or_true _

theorem nanWidenRef_getLsbD (m : BitVec 23) (i : Nat) :
    (nanWidenRef m).getLsbD i = (decide (29 ≤ i) && m.getLsbD (i - 29)) := by
  rw [nanWidenRef, BitVec.getLsbD_append]
  by_cases h : i < 29
  · simp [h]
  · simp [h, Nat.not_lt.1 h]

/-- `NAN_WIDEN_REF` loses no mantissa bit, so it gives zero for zero alone. -/
theorem nanWidenRef_ne_zero {m : BitVec 23} (h : m ≠ 0) : nanWidenRef m ≠ 0 := by
  intro hzero
  refine h (BitVec.eq_of_getLsbD_eq fun i _ => ?_)
  have hbit := nanWidenRef_getLsbD m (29 + i)
  rw [hzero] at hbit
  simpa using hbit.symm

/-- Settles O29: the two maps bit by bit; the example words by evaluation. -/
theorem referenceNanMapsAreAsTheRulesGiveThem : Obligations.ReferenceNanMapsAreAsTheRulesGiveThem :=
  ⟨fun m _ => nanNarrowRef_getLsbD m, nanNarrowRef_quiet, nanWidenRef_getLsbD, fun _ => nanWidenRef_ne_zero,
    by decide, by decide, by decide, by decide, by decide⟩

end Sys2Proof.Machine
end

section
/-! PROOF. What a decode says of a NaN, and the texts of the values (R45, R47 to R50, R53 e). The machine's parameters
are lawful, so the texts are those of the rules. -/

namespace Sys2Proof.Machine

/-- A BitString of the length of a word is that of a word. -/
theorem exists_eq_toBitString {n : Nat} {b : BitString} (h : b.length = n) : ∃ w : BitVec n, b = toBitString w :=
  ⟨toWord n b, (toBitString_toWord b h).symm⟩

/-- What DECODE32 answers for the BitString of a word (R42). -/
theorem answersWith_decode32_toBitString (w : Word32) (s : State) :
    AnswersWith (.decode32 (toBitString w)) s (.ok (.decoded (decoded32 codecParams w))) := by
  have hans := answersWith_decode32 (toBitString w) s (toBitString_length w)
  rwa [toWord_toBitString] at hans

/-- What DECODE64 answers for the BitString of a word (R43). -/
theorem answersWith_decode64_toBitString (d : Word64) (s : State) :
    AnswersWith (.decode64 (toBitString d)) s (.ok (.decoded (decoded64 codecParams d))) := by
  have hans := answersWith_decode64 (toBitString d) s (toBitString_length d)
  rwa [toWord_toBitString] at hans

theorem widen32_of_infinity (P : Params) {w : Word32} (h : class32 w = .infinity) :
    widen32 P w = inf64 (sign32 w) := by
  simp only [widen32, h]

theorem widen32_of_nan (P : Params) {w : Word32} (h : class32 w = .nan) :
    widen32 P w = nan64 (sign32 w) (P.nanWiden (man32 w)) := by
  simp only [widen32, h]

/-- The machine's parameters are lawful. -/
theorem lawfulParams_codecParams : LawfulParams codecParams := lawfulParams_paramsOfFree _ _ _

/-- Settles O23: the function is `NAN_WIDEN` of the machine. -/
theorem decode32OfNanIsNanOfTheSameSign : Obligations.Decode32OfNanIsNanOfTheSameSign :=
  ⟨codecParams.nanWiden, lawfulParams_codecParams.nanWiden_ne_zero, fun w s h =>
    ⟨decoded32 codecParams w, answersWith_decode32_toBitString w s, h, rfl, widen32_of_nan codecParams h⟩⟩

/-- Settles O26: the machine's parameters satisfy R48 and R49. -/
theorem zerosAndNansHaveTheirTexts : Obligations.ZerosAndNansHaveTheirTexts := by
  refine ⟨lawfulParams_codecParams.text_zero, lawfulParams_codecParams.text_neg_zero, fun d h => ?_⟩
  have hnan : class64 d = .nan := by rw [class64_eq, if_neg h.ne', if_pos h]
  exact lawfulParams_codecParams.text_nan d hnan

/-- Settles O27: the text of a decode is the machine's text of its native float, which reads back. -/
theorem decodedTextReadsBack : Obligations.DecodedTextReadsBack := by
  intro i s d hans
  obtain ⟨htext, -⟩ := respond_decoded i d ((answersWith_iff _ _ _).1 hans)
  rw [htext]
  exact readsBackAs_textRender d.rval

/-- An infinity has its sign, 8 one bits and 23 zero bits (R35). -/
theorem toBitString_inf32 (x : BitVec 1) :
    toBitString (inf32 x) = x.getLsbD 0 :: (List.replicate 8 true ++ List.replicate 23 false) := by
  rw [inf32, toBitString_pack32, toBitString_allOnes, toBitString_zero]

theorem class32_inf32 (x : BitVec 1) : class32 (inf32 x) = .infinity := by
  rw [class32, inf32, exp32_pack32, man32_pack32, classify, if_pos rfl, if_pos rfl]

/-- Widening an infinity gives the infinity of its sign (R44). -/
theorem widen32_inf32 (P : Params) (x : BitVec 1) : widen32 P (inf32 x) = inf64 x := by
  rw [widen32_of_infinity P (class32_inf32 x), inf32, sign32_pack32]

/-- DECODE32 of an infinity completes with its text (R47). -/
theorem decode32_inf32_text (x : BitVec 1) (s : State) :
    ∃ d : Decoded, d.text = (if x = 1 then txtNegInf else txtInf) ∧
      AnswersWith (.decode32 (x.getLsbD 0 :: (List.replicate 8 true ++ List.replicate 23 false))) s
        (.ok (.decoded d)) := by
  refine ⟨decoded32 codecParams (inf32 x), ?_, toBitString_inf32 x ▸ answersWith_decode32_toBitString _ s⟩
  rw [← lawfulParams_codecParams.textRender_inf64 x, ← widen32_inf32 codecParams x]
  rfl

/-- Settles O25: R47 of the machine's parameters, and the BitStrings are those of the two infinities. -/
theorem infinitiesReadInfAndMinusInf : Obligations.InfinitiesReadInfAndMinusInf :=
  ⟨lawfulParams_codecParams.text_inf, lawfulParams_codecParams.text_neg_inf, decode32_inf32_text 0,
    decode32_inf32_text 1⟩

end Sys2Proof.Machine
end

section
/-! PROOF. The round trips through the float (R36, R37, R44, R45, R53 a to d). Widening keeps the sign and the value of
a pattern that is no NaN, and a pattern is fixed by its sign and value; so narrowing, which keeps every binary32 value,
undoes widening. -/

namespace Sys2Proof.Machine

/-- A binary32 pattern that is no NaN is finite or an infinity (R34). -/
theorem finite_or_infinity_of_ne_nan {w : Word32} (h : class32 w ≠ .nan) :
    w.toNat % 2 ^ 31 < 0x7F800000 ∨ class32 w = .infinity := by
  rcases lt_trichotomy (w.toNat % 2 ^ 31) 0x7F800000 with hlt | heq | hgt
  · exact .inl hlt
  · exact .inr (by rw [class32_eq, if_pos heq])
  · exact absurd (by rw [class32_eq, if_neg hgt.ne', if_pos hgt]) h

/-- Widening a finite pattern gives a finite pattern of the same magnitude (R44). -/
theorem widen32_magnitude (P : Params) {w : Word32} (h : w.toNat % 2 ^ 31 < 0x7F800000) :
    (widen32 P w).toNat % 2 ^ 63 < 0x7FF0000000000000 ∧
      magVal binary64 ((widen32 P w).toNat % 2 ^ 63) = magVal binary32 (w.toNat % 2 ^ 31) := by
  obtain ⟨M, hM, hw, hval⟩ := widen32_finite P w h
  have hmag : (widen32 P w).toNat % 2 ^ 63 = M := by omega
  rw [hmag]
  exact ⟨hM, hval⟩

/-- An infinity denotes no number (R33). -/
theorem toRat_val32_of_infinity {w : Word32} (h : class32 w = .infinity) : (val32 w).toRat = none :=
  toRat_val32_none w (not_lt.1 fun hfin => (class32_finite hfin).1 h)

theorem toRat_val64_inf64 (x : BitVec 1) : (val64 (inf64 x)).toRat = none := by
  obtain rfl | rfl : x = 0 ∨ x = 1 := BitVec.eq_zero_or_eq_one x
  · rfl
  · rfl

/-- Widening keeps the value of a pattern that is no NaN (R44). -/
theorem toRat_widen32 (P : Params) {w : Word32} (h : class32 w ≠ .nan) :
    (val64 (widen32 P w)).toRat = (val32 w).toRat := by
  rcases finite_or_infinity_of_ne_nan h with hfin | hinf
  · obtain ⟨hlt, hval⟩ := widen32_magnitude P hfin
    rw [toRat_val64_signed _ hlt, toRat_val32_signed w hfin, sign64_widen32, hval]
  · rw [widen32_of_infinity P hinf, toRat_val64_inf64, toRat_val32_of_infinity hinf]

/-- Settles O22: widening keeps the sign and the value, and an infinity is kept as one. -/
theorem decode32DenotesTheSameValue : Obligations.Decode32DenotesTheSameValue := by
  intro b s hb hclass
  obtain ⟨w, rfl⟩ := exists_eq_toBitString hb
  rw [toWord_toBitString] at hclass ⊢
  obtain ⟨-, hinf, -⟩ := class64_widen32 codecParams codecParams_nanWiden_ne_zero w
  exact ⟨decoded32 codecParams w, answersWith_decode32_toBitString w s, sign64_widen32 codecParams w,
    toRat_widen32 codecParams hclass, hinf.2⟩

/-- Settles O31: neither operation changes a bit. -/
theorem decode64OfEncode64IsTheOperand : Obligations.Decode64OfEncode64IsTheOperand := fun v s s' =>
  ⟨toBitString v, decoded64 codecParams v, answersWith_encode64 v s, answersWith_decode64_toBitString v s', rfl⟩

/-- The infinity of a sign is the only binary32 pattern of its class (R35). -/
theorem eq_inf32_of_class {w : Word32} (h : class32 w = .infinity) : w = inf32 (sign32 w) := by
  rw [class32, classify] at h
  split_ifs at h with he hm
  rw [inf32, ← he, ← hm, pack32_fields]

/-- A binary32 NaN is that of its sign and mantissa, which is not zero (R35). -/
theorem eq_nan32_of_class {w : Word32} (h : class32 w = .nan) : w = nan32 (sign32 w) (man32 w) ∧ man32 w ≠ 0 := by
  rw [class32, classify] at h
  split_ifs at h with he hm
  exact ⟨by rw [nan32, ← he, pack32_fields], hm⟩

theorem class64_inf64 (x : BitVec 1) : class64 (inf64 x) = .infinity := by
  rw [class64, inf64, exp64_pack64, man64_pack64, classify, if_pos rfl, if_pos rfl]

/-- Narrowing undoes widening on every pattern that is no NaN (R53 c). -/
theorem narrow32_widen32 (P : Params) {w : Word32} (h : class32 w ≠ .nan) : narrow32 P (widen32 P w) = w := by
  rcases finite_or_infinity_of_ne_nan h with hfin | hinf
  · obtain ⟨hlt, hval⟩ := widen32_magnitude P hfin
    apply BitVec.eq_of_toNat_eq
    rw [narrow32_exact P (widen32 P w) _ hfin hval hlt, sign64_widen32, toNat_sign32]
    omega
  · rw [widen32_of_infinity P hinf, narrow32_of_infinity P (class64_inf64 _), inf64, sign64_pack64]
    exact (eq_inf32_of_class hinf).symm

/-- Settles O33: narrowing undoes widening. -/
theorem encode32OfDecode32IsTheBitString : Obligations.Encode32OfDecode32IsTheBitString := by
  intro b s s' hb hclass
  obtain ⟨w, rfl⟩ := exists_eq_toBitString hb
  rw [toWord_toBitString] at hclass
  have hans := answersWith_encode32 (widen32 codecParams w) s'
  rw [narrow32_widen32 codecParams hclass] at hans
  exact ⟨decoded32 codecParams w, answersWith_decode32_toBitString w s, hans⟩

/-- A pattern that denotes a number is finite (R33). -/
theorem finite_of_toRat_val64 {d : Word64} {x : ℚ} (h : (val64 d).toRat = some x) :
    d.toNat % 2 ^ 63 < 0x7FF0000000000000 := by
  by_contra hge
  rw [toRat_val64_none d (not_lt.1 hge)] at h
  cases h

/-- The number a binary64 pattern denotes and its sign fix the pattern. -/
theorem eq_of_toRat_val64 {d e : Word64} {x : ℚ} (hsign : sign64 d = sign64 e) (hd : (val64 d).toRat = some x)
    (he : (val64 e).toRat = some x) : d = e := by
  rw [toRat_val64_signed d (finite_of_toRat_val64 hd), hsign] at hd
  rw [toRat_val64_signed e (finite_of_toRat_val64 he)] at he
  have hfactor : signFactor (sign64 e) ≠ 0 := abs_ne_zero.1 (by rw [abs_signFactor]; exact one_ne_zero)
  have hval := mul_left_cancel₀ hfactor (Option.some.inj (hd.trans he.symm))
  exact eq_of_mag d e hsign ((magVal_strictMono binary64).injective hval)

/-- A NaN denotes no number (R33). -/
theorem class32_ne_nan_of_toRat {w : Word32} {x : ℚ} (h : (val32 w).toRat = some x) : class32 w ≠ .nan := by
  intro hnan
  rw [toRat_val32_none w (not_lt.1 fun hfin => (class32_finite hfin).2 hnan)] at h
  cases h

/-- A finite operand is kept by narrowing and widening exactly when it is a binary32 value (R53 b). -/
theorem widen32_narrow32_eq_iff (P : Params) (hP : ∀ m, P.nanWiden m ≠ 0) {v : Word64} {x : ℚ}
    (hv : (val64 v).toRat = some x) :
    widen32 P (narrow32 P v) = v ↔ ∃ w : Word32, sign32 w = sign64 v ∧ (val32 w).toRat = some x := by
  constructor
  · intro h
    have hclass : class32 (narrow32 P v) ≠ .nan := by
      rw [ne_eq, ← (class64_widen32 P hP _).1, h, class64_eq]
      have hfin := finite_of_toRat_val64 hv
      rw [if_neg hfin.ne, if_neg hfin.not_gt]
      split_ifs <;> decide
    refine ⟨narrow32 P v, ?_, ?_⟩
    · rw [← sign64_widen32 P, h]
    · rw [← toRat_widen32 P hclass, h, hv]
  · rintro ⟨w, hsign, hw⟩
    have hclass := class32_ne_nan_of_toRat hw
    obtain rfl : widen32 P w = v :=
      eq_of_toRat_val64 ((sign64_widen32 P w).trans hsign) ((toRat_widen32 P hclass).trans hw) hv
    rw [narrow32_widen32 P hclass]

/-- Settles O32: what DECODE32 after ENCODE32 gives is the operand narrowed and widened. -/
theorem decode32OfEncode32IsExactOnBinary32Values : Obligations.Decode32OfEncode32IsExactOnBinary32Values :=
  fun v s s' _ hv =>
    ⟨toBitString (narrow32 codecParams v), decoded32 codecParams (narrow32 codecParams v), answersWith_encode32 v s,
      answersWith_decode32_toBitString _ s', widen32_narrow32_eq_iff codecParams codecParams_nanWiden_ne_zero hv⟩

/-! NaNs (R37, R45, R53 d). -/

/-- `NAN_NARROW` of the machine is never zero (R37). -/
theorem codecParams_nanNarrow_ne_zero (m : BitVec 52) : codecParams.nanNarrow m ≠ 0 := nonZero_ne (by decide) _

/-- What narrowing makes of a widened NaN: a NaN of its sign, its mantissa through both parameters. -/
theorem narrow32_widen32_of_nan (P : Params) {w : Word32} (h : class32 w = .nan) (hne : P.nanWiden (man32 w) ≠ 0) :
    narrow32 P (widen32 P w) = nan32 (sign32 w) (P.nanNarrow (P.nanWiden (man32 w))) := by
  rw [widen32_of_nan P h, narrow32_of_nan P (class64_nan64 _ _ hne), nan64, sign64_pack64, man64_pack64]

/-- Of the NaNs of the sign of a NaN, the one of its mantissa is it. -/
theorem nan32_sign32_eq_iff {w : Word32} (h : class32 w = .nan) (p : BitVec 23) :
    nan32 (sign32 w) p = w ↔ p = man32 w := by
  refine ⟨fun heq => ?_, fun hp => ?_⟩
  · rw [← heq, nan32, man32_pack32]
  · rw [hp, ← (eq_nan32_of_class h).1]

/-- `NAN_NARROW_REF` after `NAN_WIDEN_REF` keeps a mantissa exactly when its quiet bit is set. -/
theorem nanNarrowRef_nanWidenRef_eq_iff (m : BitVec 23) :
    nanNarrowRef (nanWidenRef m) = m ↔ m.getLsbD 22 = true := by
  refine ⟨fun heq => heq ▸ nanNarrowRef_quiet _, fun hquiet => BitVec.eq_of_getLsbD_eq fun i hi => ?_⟩
  rcases Nat.lt_or_ge i 22 with hlow | htop
  · rw [nanNarrowRef_getLsbD _ hlow, nanWidenRef_getLsbD]
    simp
  · obtain rfl : i = 22 := by omega
    rw [nanNarrowRef_quiet, hquiet]

/-- Settles O34: each operation makes a NaN of a NaN and keeps the sign; under the reference maps the mantissa is kept
exactly when its quiet bit is set. -/
theorem nansKeepClassAndSignAtWidth32 : Obligations.NansKeepClassAndSignAtWidth32 := by
  refine ⟨fun v s s' hv => ?_, fun w s s' hw => ?_, fun w hw => ?_⟩
  · have hu : class32 (narrow32 codecParams v) = .nan := by
      rw [narrow32_of_nan codecParams hv, class32_nan32 _ _ (codecParams_nanNarrow_ne_zero _)]
    have hsign : sign32 (narrow32 codecParams v) = sign64 v := by
      rw [narrow32_of_nan codecParams hv, nan32, sign32_pack32]
    exact ⟨_, decoded32 codecParams (narrow32 codecParams v), answersWith_encode32 v s,
      answersWith_decode32_toBitString _ s', hu, (class64_widen32 _ codecParams_nanWiden_ne_zero _).1.2 hu,
      (sign64_widen32 _ _).trans hsign⟩
  · have hans := answersWith_encode32 (widen32 codecParams w) s'
    rw [narrow32_widen32_of_nan codecParams hw (codecParams_nanWiden_ne_zero _)] at hans
    exact ⟨decoded32 codecParams w, _, answersWith_decode32_toBitString w s, hans,
      class32_nan32 _ _ (codecParams_nanNarrow_ne_zero _), sign32_pack32 _ _ _⟩
  · have hne : referenceParams.nanWiden (man32 w) ≠ 0 := nanWidenRef_ne_zero (eq_nan32_of_class hw).2
    have hbit : (man32 w).getLsbD 22 = w.getLsbD 22 := getLsbD_slice w 0 23 22 (by decide)
    rw [narrow32_widen32_of_nan referenceParams hw hne, nan32_sign32_eq_iff hw, ← hbit]
    exact nanNarrowRef_nanWidenRef_eq_iff (man32 w)

end Sys2Proof.Machine
end

section
/-! PROOF. The hexadecimal transforms (R54 to R61). HEXFROMBITS writes the numeral of `uint(b)`; BITSFROMHEXN reads a
numeral whose value fits and pads it; so the one after the other keeps `uint`, which fixes a BitString of `N` elements. -/

namespace Sys2Proof.Machine

/-! HEXFROMBITS (R54, R55). -/

/-- What HEXFROMBITS answers for a BitString that is not empty. -/
theorem answersWith_hexFromBits {b : BitString} (hb : b ≠ []) (s : State) :
    AnswersWith (.hexFromBits b) s (.ok (.hex (hexPrefix ++ hexDigits (uint b)))) :=
  (answersWith_hexFromBits_iff b s _).2 ⟨hb, rfl⟩

/-- A BitString that begins with 1 denotes a natural of as many bits as it has elements. -/
theorem size_uint_true_cons (xs : BitString) : (uint (true :: xs)).size = xs.length + 1 := by
  have htop : 2 ^ xs.length ≤ uint (true :: xs) := by simp [uint]
  exact le_antisymm (Nat.size_le.2 (uint_lt (true :: xs))) (Nat.lt_size.2 htop)

/-- The bits of `uint(b)` are the elements of `b` after its leading zeros (R54). -/
theorem size_uint (b : BitString) : (uint b).size = (b.dropWhile (fun x => x == false)).length := by
  rw [← uint_dropWhile]
  induction b with
  | nil => exact Nat.size_zero
  | cons x xs ih =>
    cases x with
    | false => exact ih
    | true => exact size_uint_true_cons xs

/-- Settles O35: `HEXDIGITS` writes the numeral, with one digit for each four bits of `uint(b)` begun. -/
theorem hexFromBitsRendersTheInteger : Obligations.HexFromBitsRendersTheInteger := fun b s hb =>
  ⟨hexDigits (uint b), answersWith_hexFromBits hb s, hexDigits_numeral (uint b), by
    rw [hexDigits_length, size_uint]⟩

/-- Settles O36: the empty BitString is the operand for which no response is defined. -/
theorem hexFromBitsRefusesTheEmptyBitString : Obligations.HexFromBitsRefusesTheEmptyBitString := by
  intro s
  rw [exec_eq_respond, (respond_eq_none_iff codecParams _).2 rfl]

/-! BITSFROMHEX32 and BITSFROMHEX64 (R56, R57, R59). -/

/-- BITSFROMHEX32 answers the BitString of a value that fits (R56). -/
theorem answersWith_bitsFromHex32_of_denotesHex {h : Str} {n : Nat} (hd : DenotesHex h n) (hn : n < 2 ^ 32)
    (s : State) : AnswersWith (.bitsFromHex32 h) s (.ok (.bits (toBitString (BitVec.ofNat 32 n)))) := by
  rw [answersWith_iff, respond, (hexParseBelow_iff 32 h n).2 ⟨hd, hn⟩]

/-- BITSFROMHEX64 answers the BitString of a value that fits (R57). -/
theorem answersWith_bitsFromHex64_of_denotesHex {h : Str} {n : Nat} (hd : DenotesHex h n) (hn : n < 2 ^ 64)
    (s : State) : AnswersWith (.bitsFromHex64 h) s (.ok (.bits (toBitString (BitVec.ofNat 64 n)))) := by
  rw [answersWith_iff, respond, (hexParseBelow_iff 64 h n).2 ⟨hd, hn⟩]

/-- Zero padding keeps a value that fits (R59). -/
theorem uint_toBitString_ofNat {N n : Nat} (hn : n < 2 ^ N) : uint (toBitString (BitVec.ofNat N n)) = n := by
  rw [uint_toBitString, BitVec.toNat_ofNat, Nat.mod_eq_of_lt hn]

/-- Settles O37: the numeral is read with its value, and zero padding keeps the value. -/
theorem bitsFromHexPadsTheValue : Obligations.BitsFromHexPadsTheValue := fun _ _ s hd =>
  ⟨fun hn => ⟨_, answersWith_bitsFromHex32_of_denotesHex hd hn s, toBitString_length _, uint_toBitString_ofNat hn⟩,
    fun hn => ⟨_, answersWith_bitsFromHex64_of_denotesHex hd hn s, toBitString_length _, uint_toBitString_ofNat hn⟩⟩

/-! InvalidHex (R58, R61, R63). -/

/-- Only the hex-to-bits operations fail with `InvalidHex` (R63). -/
theorem bitsFromHex_of_respond_invalidHex {P : Params} {i : Instr} (hr : respond P i = some (.fail .invalidHex)) :
    (∃ h, i = .bitsFromHex32 h) ∨ ∃ h, i = .bitsFromHex64 h := by
  cases i with
  | encode32 v => cases hr
  | encode64 v => cases hr
  | decode32 b => rw [respond] at hr; split_ifs at hr <;> cases hr
  | decode64 b => rw [respond] at hr; split_ifs at hr <;> cases hr
  | bitsFromHex32 h => exact .inl ⟨h, rfl⟩
  | bitsFromHex64 h => exact .inr ⟨h, rfl⟩
  | hexFromBits b => rw [respond] at hr; split_ifs at hr; cases hr

/-- Settles O38: the operations fail when `hexParseBelow` finds no value that fits, and nothing else raises the
failure. -/
theorem invalidHexIsRaisedExactlyByBadOrLargeNumerals : Obligations.InvalidHexIsRaisedExactlyByBadOrLargeNumerals :=
  ⟨fun h s => (answersWith_bitsFromHex32_fail h s).trans (hexParseBelow_none_iff 32 h),
    fun h s => (answersWith_bitsFromHex64_fail h s).trans (hexParseBelow_none_iff 64 h),
    fun i s hans => bitsFromHex_of_respond_invalidHex ((answersWith_iff i s _).1 hans), rfl⟩

/-- The range check fails exactly on a value that needs more than `N` bits (R59). -/
theorem hexParseBelow_eq_none_iff_of_denotesHex {h : Str} {n : Nat} (hd : DenotesHex h n) (N : Nat) :
    hexParseBelow N h = none ↔ 2 ^ N ≤ n := by
  rw [hexParseBelow, (hexParse_iff h n).2 hd]
  simp

/-- A String of digits denotes the value of its digits (R58). -/
theorem exists_denotesHex_of_hexGlyphs {t : Str} (ht : t ≠ []) (hglyphs : ∀ c ∈ t, ∃ v, HexGlyph c v) :
    ∃ vs, List.Forall₂ HexGlyph t vs ∧ DenotesHex t (natOfDigits 16 vs) := by
  choose! value hvalue using hglyphs
  have hvs : List.Forall₂ HexGlyph t (t.map value) := by
    rwa [List.forall₂_map_right_iff, List.forall₂_same]
  exact ⟨_, hvs, [], t, _, rfl, .inl rfl, ht, hvs, (foldl_zero_eq 16 _).symm⟩

/-- The range check of a String of digits at `4 k` bits counts the digits after the leading zeros (R61). -/
theorem hexParseBelow_eq_none_iff_significantDigits {t : Str} (ht : t ≠ []) (hglyphs : ∀ c ∈ t, ∃ v, HexGlyph c v)
    (k : Nat) : hexParseBelow (4 * k) t = none ↔ k < (t.dropWhile (fun c => c == 0x30#8)).length := by
  obtain ⟨vs, hvs, hd⟩ := exists_denotesHex_of_hexGlyphs ht hglyphs
  rw [hexParseBelow_eq_none_iff_of_denotesHex hd, ← not_lt, natOfDigits_lt_iff k t vs hvs, not_le]

/-- Settles O39: 32 bits are 8 digits of four, 64 bits are 16. -/
theorem rangeCheckCountsSignificantDigits : Obligations.RangeCheckCountsSignificantDigits := fun t s ht hglyphs =>
  ⟨(answersWith_bitsFromHex32_fail t s).trans (hexParseBelow_eq_none_iff_significantDigits ht hglyphs 8),
    (answersWith_bitsFromHex64_fail t s).trans (hexParseBelow_eq_none_iff_significantDigits ht hglyphs 16)⟩

/-! The round trip (R60). -/

/-- Settles O40: HEXFROMBITS writes a numeral of `uint(b)`, and a BitString of `N` elements is that of its word. -/
theorem bitsFromHexOfHexFromBitsIsTheNumeral : Obligations.BitsFromHexOfHexFromBitsIsTheNumeral := by
  intro b s s' hb
  have hd : DenotesHex (hexPrefix ++ hexDigits (uint b)) (uint b) := denotes_hexDigits (uint b)
  refine ⟨_, answersWith_hexFromBits hb s, fun hfits => ?_, fun hfits => ?_⟩
  · exact ⟨toBitString (toWord 32 b), answersWith_bitsFromHex32_of_denotesHex hd hfits s', toBitString_length _,
      uint_toBitString_ofNat hfits, toBitString_toWord b⟩
  · exact ⟨toBitString (toWord 64 b), answersWith_bitsFromHex64_of_denotesHex hd hfits s', toBitString_length _,
      uint_toBitString_ofNat hfits, toBitString_toWord b⟩

/-- The BitString of a word of at least one bit is not empty. -/
theorem toBitString_ne_nil {n : Nat} (w : BitVec n) (hn : 0 < n) : toBitString w ≠ [] :=
  List.ne_nil_of_length_pos ((toBitString_length w).symm ▸ hn)

/-- The value of a word's BitString fits the word. -/
theorem uint_toBitString_lt {n : Nat} (w : BitVec n) : uint (toBitString w) < 2 ^ n :=
  (uint_toBitString w).symm ▸ w.isLt

/-- Settles O41: an encode returns the BitString of a word, of `N` elements, which the transforms give back. -/
theorem hexRoundTripReproducesAnEncode : Obligations.HexRoundTripReproducesAnEncode := by
  intro v s s1 s2
  constructor
  · obtain ⟨h, hhex, h32, -⟩ :=
      bitsFromHexOfHexFromBitsIsTheNumeral _ s1 s2 (toBitString_ne_nil (narrow32 codecParams v) (by decide))
    obtain ⟨c, hback, -, -, hc⟩ := h32 (uint_toBitString_lt _)
    obtain rfl := hc (toBitString_length _)
    exact ⟨_, h, answersWith_encode32 v s, hhex, hback⟩
  · obtain ⟨h, hhex, -, h64⟩ := bitsFromHexOfHexFromBitsIsTheNumeral _ s1 s2 (toBitString_ne_nil v (by decide))
    obtain ⟨c, hback, -, -, hc⟩ := h64 (uint_toBitString_lt v)
    obtain rfl := hc (toBitString_length v)
    exact ⟨_, h, answersWith_encode64 v s, hhex, hback⟩

end Sys2Proof.Machine
end

section
/-! PROOF. The two failures (R62, R63, R64, R67). An operation reports a failure exactly where R64's table names it; what
the table says of `InvalidLength` is R62, and a failure is a response like any other, given again for the same request. -/

namespace Sys2Proof.Machine

/-- No numeral is read below `2 ^ w` exactly when every value of the text is at least `2 ^ w` (R58, R59). -/
theorem hexParseBelow_eq_none_iff_forall (w : Nat) (h : Str) :
    hexParseBelow w h = none ↔ ∀ n, DenotesHex h n → n ≥ 2 ^ w := by
  simp only [hexParseBelow_none_iff, not_exists, not_and, not_lt, ge_iff_le]

/-- The failure table of R64, row by row: a decode checks the length, a hex-to-bits operation the value, and no other
operation fails. -/
theorem answersWith_fail_iff (i : Instr) (s : State) (k : Failure) :
    AnswersWith i s (.fail k) ↔ FailureCause i k := by
  cases i with
  | encode32 v => simp [answersWith_iff, respond, FailureCause]
  | encode64 v => simp [answersWith_iff, respond, FailureCause]
  | decode32 b => cases k <;> simp [answersWith_iff, respond, FailureCause, ite_eq_iff]
  | decode64 b => cases k <;> simp [answersWith_iff, respond, FailureCause, ite_eq_iff]
  | bitsFromHex32 h =>
    cases k with
    | invalidLength => rw [answersWith_iff, respond]; split <;> simp [FailureCause]
    | invalidHex => exact (answersWith_bitsFromHex32_fail h s).trans (hexParseBelow_eq_none_iff_forall 32 h)
  | bitsFromHex64 h =>
    cases k with
    | invalidLength => rw [answersWith_iff, respond]; split <;> simp [FailureCause]
    | invalidHex => exact (answersWith_bitsFromHex64_fail h s).trans (hexParseBelow_eq_none_iff_forall 64 h)
  | hexFromBits b => simp [answersWith_iff, respond, FailureCause]

/-- Only the two rows of the decodes name `InvalidLength` (R62). -/
theorem decode_of_failureCause_invalidLength {i : Instr} (h : FailureCause i .invalidLength) :
    (∃ b, i = .decode32 b ∧ b.length ≠ 32) ∨ ∃ b, i = .decode64 b ∧ b.length ≠ 64 := by
  cases i with
  | decode32 b => exact .inl ⟨b, rfl, h⟩
  | decode64 b => exact .inr ⟨b, rfl, h⟩
  | encode32 _ | encode64 _ | hexFromBits _ | bitsFromHex32 _ | bitsFromHex64 _ => exact h.elim

/-- Settles O20: the decodes of another length are the rows of the failure table that name `InvalidLength`. -/
theorem invalidLengthIsRaisedExactlyByDecodesOfWrongWidth :
    Obligations.InvalidLengthIsRaisedExactlyByDecodesOfWrongWidth :=
  ⟨fun _ s hb => (answersWith_fail_iff _ s _).2 hb, fun _ s hb => (answersWith_fail_iff _ s _).2 hb,
    fun i s hans => decode_of_failureCause_invalidLength ((answersWith_fail_iff i s _).1 hans), rfl⟩

/-- Settles O44: an operation has one response, which is a failure exactly where the table names it; a response that
is no failure is an OK result. -/
theorem failureTableIsComplete : Obligations.FailureTableIsComplete := by
  intro i s a hans
  have htable : ∀ k, a = .fail k ↔ FailureCause i k := fun k => by
    rw [← answersWith_fail_iff i s, answersWith_iff, (answersWith_iff i s a).1 hans, Option.some.injEq]
  refine ⟨htable, fun hnone => ?_⟩
  cases a with
  | ok res => exact ⟨res, rfl⟩
  | fail k => exact absurd ((htable k).1 rfl) (hnone k)

/-- Settles O45: each of the two steps adds the response of the request, which reads no earlier response. -/
theorem sameRequestAgainGivesSameResponse : Obligations.SameRequestAgainGivesSameResponse := fun r rest rs hr =>
  ⟨codecResponseD r, step_of_answerable hr (r :: rest) rs, step_of_answerable hr rest _⟩

end Sys2Proof.Machine
end

section
/-! PROOF. The first request after reset (R71, R72, R75). The state after reset holds no value that a step reads, so
what may come first is the case of no earlier response of what may come at any place. -/

namespace Sys2Proof.Machine

/-- The request of a well-formed operation obtains the response of that operation, at any place in a sequence. -/
theorem step_encode_of_respond {i : Instr} {a : Response} (hwf : i.wellFormed = true)
    (ha : respond codecParams i = some a) (rest : List WireRequest) (rs : List Response) :
    step ⟨encode i :: rest, rs⟩ = .next ⟨rest, rs ++ [a]⟩ :=
  step_of_respond (encode i) rest rs (decodeOfEncodeIsTheOperation i hwf) ha

/-- Settles O1: after reset there is no earlier response, and a well-formed operation may come at any place. -/
theorem anyOperationMayBeFirstAfterReset : Obligations.AnyOperationMayBeFirstAfterReset :=
  fun _ _ hwf ha => step_encode_of_respond hwf ha [] State.reset.responses

end Sys2Proof.Machine
end

section
/-! PROOF. Requests as numbers (log 3, 4): the flat form of a request gives the request back, so a request stored in
that form is the one the next step serves, and a select code alone is the flat form of the request blank but for it. -/

namespace Sys2Proof

/-- The fields of R21 are read back from the positions that the flat form gives them: a slice that ends below a field
does not read that field, and the slice that begins at a field is that field. -/
theorem WireRequest.ofFlat_toFlat (r : WireRequest) : WireRequest.ofFlat r.toFlat = r := by
  unfold ofFlat toFlat
  congr 1 <;> repeat rw [BitVec.extractLsb'_append_eq_of_add_le (by decide)]
  case e_op => exact BitVec.extractLsb'_eq_self
  all_goals exact BitVec.extractLsb'_append_eq_left

/-- A request whose flat form fits the bits that are stored is the request read from them. -/
theorem WireRequest.ofTableWord_toFlat {r : WireRequest} {nbits : Nat} (h : r.toFlat.toNat < 2 ^ nbits) :
    WireRequest.ofTableWord nbits r.toFlat.toNat = r := by
  rw [ofTableWord, Nat.mod_eq_of_lt h, BitVec.ofNat_toNat, BitVec.setWidth_eq, ofFlat_toFlat]

/-- `op` stands lowest, as spec/opcode_table.json numbers it, so the request blank but for it is the number `op`. -/
theorem WireRequest.toNat_toFlat_blank (op : BitVec 3) : (WireRequest.blank op).toFlat.toNat = op.toNat := by
  unfold blank toFlat
  repeat rw [BitVec.toNat_append]
  simp only [BitVec.ofNat_eq_ofNat, BitVec.toNat_zero, Nat.zero_shiftLeft, Nat.zero_or]

/-- A select code stored in `nbits` bits is the request blank but for it. -/
theorem WireRequest.ofTableWord_toNat_op (op : BitVec 3) {nbits : Nat} (h : 3 ≤ nbits) :
    WireRequest.ofTableWord nbits op.toNat = WireRequest.blank op := by
  have hlt : (blank op).toFlat.toNat < 2 ^ nbits := by
    rw [toNat_toFlat_blank]
    exact op.isLt.trans_le (Nat.pow_le_pow_right Nat.two_pos h)
  rw [← toNat_toFlat_blank op, ofTableWord_toFlat hlt]

theorem decodeTableWord_of_decode_ok (op : BitVec 3) {i : Instr} (h : decode (.blank op) = .ok i) :
    decodeTableWord 8 op.toNat = some i := by
  rw [decodeTableWord, WireRequest.ofTableWord_toNat_op op (by decide), h]

theorem decodeTableWord_of_decode_error (op : BitVec 3) {e : DecodeError} (h : decode (.blank op) = .error e) :
    decodeTableWord 8 op.toNat = none := by
  rw [decodeTableWord, WireRequest.ofTableWord_toNat_op op (by decide), h]

/-- Settles O9: a code alone is the blank request with that code, whose operand is zero or empty. -/
theorem writtenOutCodesDecode : Obligations.WrittenOutCodesDecode :=
  ⟨decodeTableWord_of_decode_ok 0b000#3 (decode_encode32 rfl),
    decodeTableWord_of_decode_ok 0b001#3 (decode_encode64 rfl),
    decodeTableWord_of_decode_ok 0b010#3 (decode_decode32 rfl),
    decodeTableWord_of_decode_ok 0b011#3 (decode_decode64 rfl),
    decodeTableWord_of_decode_ok 0b100#3 (decode_bitsFromHex32 rfl),
    decodeTableWord_of_decode_ok 0b101#3 (decode_bitsFromHex64 rfl),
    decodeTableWord_of_decode_ok 0b110#3 (decode_hexFromBits rfl),
    decodeTableWord_of_decode_error 0b111#3 (decode_reserved rfl)⟩

end Sys2Proof

namespace Sys2Proof.Machine

/-- A request stored in its flat form is presented next, before the requests of the state. -/
theorem State.withFetchWord_toFlat (s : State) (r : WireRequest) :
    s.withFetchWord wireBits r.toFlat.toNat = ⟨r :: s.requests, s.responses⟩ := by
  rw [withFetchWord, WireRequest.ofTableWord_toFlat r.toFlat.isLt]

/-- Settles O8: the stored request is that of the operation, which it decodes to; the port is left as in the given
state. -/
theorem storedRequestIsPerformedNext : Obligations.StoredRequestIsPerformedNext := by
  refine ⟨WireRequest.ofFlat_toFlat, fun i s hwf => ?_⟩
  rw [State.withFetchWord_toFlat]
  exact stepPerformsTheDecodedRequest (encode i) s.requests s.responses i (decodeOfEncodeIsTheOperation i hwf)

/-- Settles O49: no response is produced before the first step, so there is none to be illegal. -/
theorem resetHasOnlyLegalResponses : Obligations.ResetHasOnlyLegalResponses := by
  refine ⟨fun r hr => ?_, rfl⟩
  rw [State.reset_responses] at hr
  exact absurd hr List.not_mem_nil

end Sys2Proof.Machine
end
